-- ==== Sys2Proof/Word.lean ====
section
/-! DEFINITION. The widths of the block's values (00_scope.md R11) and subtraction of timestamps (R12). -/

namespace Sys2Proof

/-- `u8`: an address, a command, a complement. -/
abbrev Byte := BitVec 8

/-- `u32`: the payload as decoded. -/
abbrev Payload := BitVec 32

/-- `u64`: a timestamp or a duration in microseconds, as a word carries it (30_encoding.md R74). How many of its bits the
block keeps is the parameter `TS_WIDTH` of R8, `Config.tsWidth`. -/
abbrev Timestamp := BitVec 64

/-- The 68-bit transaction word `in_word[67:0]` (30_encoding.md R70). -/
abbrev InWord := BitVec 68

/-- `a − b` on timestamps and durations: `(a − b) mod 2^64` (R12). -/
abbrev sub64 (a b : Timestamp) : Timestamp := a - b

end Sys2Proof
end

