-- ==== Sys2Proof/Config.lean ====
section
/-! DEFINITION. The parameters of a block instance (00_scope.md R8): constants fixed when the instance is built,
written by no transaction (10_state.md R28). `Config.hw` is this hardware. -/

namespace Sys2Proof

/-- What the validator does with fewer than `FRAME_BITS` bits (42_validate_repeat.md R165). -/
inductive ShortFramePolicy where
  | reject
  | reference
deriving DecidableEq, Repr

/-- One record of the parameters of R8. -/
structure Config where
  /-- `LOG_CAPACITY`, entries. -/
  logCapacity : Nat
  /-- `T_START_PULSE`, µs. -/
  tStartPulse : Nat
  /-- `T_SPACE_NEW`, µs. -/
  tSpaceNew : Nat
  /-- `T_SPACE_REPEAT`, µs. -/
  tSpaceRepeat : Nat
  /-- `T_UNIT`, µs: read by no rule of the block, only by the pseudo-instruction of R84 (R9). -/
  tUnit : Nat
  /-- `T_BIT0`, µs. -/
  tBit0 : Nat
  /-- `T_BIT1`, µs. -/
  tBit1 : Nat
  /-- `SLACK`, µs. -/
  slack : Nat
  /-- `IDLE_THRESHOLD`, µs. -/
  idleThreshold : Nat
  /-- `POLL_PERIOD`, µs: a duty of the host, read by no rule (93_implementation_defined.md I5). -/
  pollPeriod : Nat
  /-- `FRAME_BITS`. -/
  frameBits : Nat
  /-- `TS_WIDTH`, the width of timestamps and durations in bits, at most the 64 of a word's operand (log entry 8, DESIGN
  CHOICE). -/
  tsWidth : Nat
  /-- `SHORT_FRAME_POLICY`. -/
  shortFramePolicy : ShortFramePolicy
  /-- `SINK_CLEAR_VALUE`. -/
  sinkClearValue : Byte
  /-- `ARRIVAL_ORDER`: which of the transactions still waiting from one instant is performed next, at each
  draw (60_exceptions.md R208). The number is taken modulo how many are waiting. -/
  arrivalOrder : Nat → Nat

/-- The free value behind `ARRIVAL_ORDER`, which the spec leaves OPEN (R8, D7; log entry 3, DESIGN CHOICE). It has no body:
nothing can be proved of its values, so what is proved holds for every order. -/
opaque Config.openArrivalOrder : Nat → Nat

/-- This hardware: the values of R8. -/
def Config.hw : Config where
  logCapacity := 100
  tStartPulse := 9300
  tSpaceNew := 4500
  tSpaceRepeat := 2250
  tUnit := 562
  tBit0 := 1125
  tBit1 := 2250
  slack := 200
  idleThreshold := 10000
  pollPeriod := 1000
  frameBits := 32
  tsWidth := 64
  shortFramePolicy := .reject
  sinkClearValue := 0x00
  arrivalOrder := Config.openArrivalOrder

end Sys2Proof
end

