-- ==== Sys2Proof/Syntax.lean ====
section
/-! DEFINITION. The transactions of the block, one constructor per row of spec/opcode_table.json, and the names a
refused word is refused by. -/

namespace Sys2Proof

/-- The direction of an edge: one direction per event (30_encoding.md R73). -/
inductive EdgeKind where
  | falling
  | rising
deriving DecidableEq, Repr

/-- A transaction (30_encoding.md R72). `RESET` is the `rst` input and no transaction word (R77). -/
inductive Instr where
  /-- EDGE: an edge notification of the capture front end (40_capture.md R100). -/
  | edge (kind : EdgeKind) (ts : Timestamp)
  /-- TICK: one probe of the IdleDetector at the platform's time `now` (41_idle_decode.md R120). -/
  | tick (now : Timestamp)
  /-- ACK: the consumer marks the command consumed (43_host.md R190). -/
  | ack
  /-- CLEAR: the consumer clears the command (43_host.md R191). -/
  | clear
deriving DecidableEq, Repr

/-- Why a word is illegal, in the words of 30_encoding.md R76. -/
inductive IllegalWord where
  /-- `rsv` (bit 64) is set on EDGE or TICK. -/
  | reservedBitSet
  /-- `kind` (bit 65) is 1 on TICK. -/
  | kindOnTick
  /-- A bit of `in_word[65:0]` is set on ACK or CLEAR. -/
  | nonzeroFieldOnBare
deriving DecidableEq, Repr

/-- A row of the opcode table: a word `w` matches when `w & mask = pattern` (30_encoding.md R75). -/
structure OpcodeRow where
  mnemonic : String
  pattern  : InWord
  mask     : InWord
deriving DecidableEq, Repr

end Sys2Proof
end

