-- ==== Sys2Proof/WellFormed.lean ====
section
/-! DEFINITION. What a well-formed transaction and a well-formed parameter record are. -/

namespace Sys2Proof

/-- Every transaction that can be written is well formed: 30_encoding.md R75 admits any `kind` and `ts` on EDGE and
any `ts` on TICK, and the operands' types hold nothing wider (log entry 10, DEDUCED). Ill-formed input is an illegal WORD,
which `decode` refuses. -/
def Instr.wellFormed : Instr → Bool
  | .edge _ _ => true
  | .tick _ => true
  | .ack => true
  | .clear => true

/-- No two windows tested at the same point overlap: logic 0 against logic 1, and the repeat space against the
new-frame space (41_idle_decode.md R135). -/
def Config.windowsDisjoint (c : Config) : Bool :=
  c.tBit0 + 2 * c.slack ≤ c.tBit1 + 1 && c.tSpaceRepeat + 2 * c.slack ≤ c.tSpaceNew + 1

/-- `log.len` fits its 7 bits (10_state.md R20). -/
def Config.logLenFits (c : Config) : Bool := c.logCapacity < 2 ^ 7

/-- A full frame fits the `u32` payload (41_idle_decode.md R125). -/
def Config.frameFits (c : Config) : Bool := c.frameBits ≤ 32

/-- A timestamp fits the 64 bits of a word's operand (30_encoding.md R71, R74). -/
def Config.timestampFits (c : Config) : Bool := c.tsWidth ≤ 64

/-- The checks together. -/
def Config.wellFormed (c : Config) : Bool := c.windowsDisjoint && c.logLenFits && c.frameFits && c.timestampFits

end Sys2Proof
end

