-- ==== Sys2Proof/Decode.lean ====
section
/-! DEFINITION. Reading a transaction from a 68-bit word and writing one (30_encoding.md section 1 and R85). -/

namespace Sys2Proof

/-- `op = in_word[67:66]` (R71). -/
def InWord.op (w : InWord) : BitVec 2 := w.extractLsb' 66 2

/-- `kind = in_word[65]` (R74). -/
def InWord.kindBit (w : InWord) : BitVec 1 := w.extractLsb' 65 1

/-- `rsv = in_word[64]` (R71). -/
def InWord.rsv (w : InWord) : BitVec 1 := w.extractLsb' 64 1

/-- `ts = in_word[63:0]`, a `u64` with no extension, scaling or sign (R74). -/
def InWord.ts (w : InWord) : Timestamp := w.extractLsb' 0 64

/-- `in_word[65:0]`, which is 0 on ACK and CLEAR (R75). -/
def InWord.below (w : InWord) : BitVec 66 := w.extractLsb' 0 66

/-- `kind = 0` is Falling, `kind = 1` is Rising (R73). -/
def EdgeKind.ofBit (b : BitVec 1) : EdgeKind := if b = 1#1 then .rising else .falling

/-- The bit of an edge kind (R73). -/
def EdgeKind.toBit : EdgeKind → BitVec 1
  | .falling => 0#1
  | .rising => 1#1

/-- The decoder of transaction words (R85). Every word decodes to one transaction or is illegal, by name (R76). Where
a word breaks two rules at once, the reason named first is the model's choice (log entry 6, DESIGN CHOICE). -/
def decode (w : InWord) : Except IllegalWord Instr :=
  if w.op = 0b00#2 then
    if w.rsv = 0#1 then .ok (.edge (.ofBit w.kindBit) w.ts) else .error .reservedBitSet
  else if w.op = 0b01#2 then
    if w.rsv = 0#1 then
      if w.kindBit = 0#1 then .ok (.tick w.ts) else .error .kindOnTick
    else .error .reservedBitSet
  else if w.op = 0b10#2 then
    if w.below = 0#66 then .ok .ack else .error .nonzeroFieldOnBare
  else
    if w.below = 0#66 then .ok .clear else .error .nonzeroFieldOnBare

/-- The one format `op kind rsv ts`, most significant field first (R71). -/
def InWord.ofFields (op : BitVec 2) (kind rsv : BitVec 1) (ts : Timestamp) : InWord := op ++ kind ++ rsv ++ ts

/-- The word of a transaction, field by field (R71, R72, R73). -/
def encode : Instr → InWord
  | .edge kind ts => .ofFields 0b00 kind.toBit 0 ts
  | .tick now => .ofFields 0b01 0 0 now
  | .ack => .ofFields 0b10 0 0 0
  | .clear => .ofFields 0b11 0 0 0

/-- The opcode table's rows as (match, mask) pairs (R75; spec/opcode_table.json). -/
def opcodeRows : List OpcodeRow :=
  [ ⟨"EDGE",  0x00000000000000000#68, 0xD0000000000000000#68⟩,
    ⟨"TICK",  0x40000000000000000#68, 0xF0000000000000000#68⟩,
    ⟨"ACK",   0x80000000000000000#68, 0xFFFFFFFFFFFFFFFFF#68⟩,
    ⟨"CLEAR", 0xC0000000000000000#68, 0xFFFFFFFFFFFFFFFFF#68⟩ ]

/-- `w & mask = match` (R75). -/
def OpcodeRow.accepts (r : OpcodeRow) (w : InWord) : Bool := w &&& r.mask == r.pattern

/-- The rows a word matches. -/
def rowsOf (w : InWord) : List OpcodeRow := opcodeRows.filter (·.accepts w)

/-- The mnemonic of a transaction, as the opcode table spells it. -/
def Instr.mnemonic : Instr → String
  | .edge _ _ => "EDGE"
  | .tick _ => "TICK"
  | .ack => "ACK"
  | .clear => "CLEAR"

/-- The instruction the decoder reads from a word given as a number, bit 0 least significant. The input has 68 wires,
so a number with a bit at or above 68 is no word (log entry 11, DESIGN CHOICE). -/
def decodeTableWord (nbits w : Nat) : Option Instr :=
  if w % 2 ^ nbits < 2 ^ 68 then (decode (BitVec.ofNat 68 (w % 2 ^ nbits))).toOption else none

end Sys2Proof
end

