-- ==== Sys2Proof/Machine/State.lean ====
section
/-! DEFINITION. The state of the block (10_state.md R20), the event a transaction emits (30_encoding.md R80), the
input the host presents (R70), the reasons a step can stop, and the state after reset (70_reset_and_hazards.md R230). -/

namespace Sys2Proof.Machine

/-- One entry of the EdgeLog: `{ kind, timestamp_us }` (00_scope.md R16). -/
structure EdgeEvent where
  kind : EdgeKind
  ts   : Timestamp
deriving DecidableEq, Repr

/-- RepeatCache: one optional pair, present when `valid` (10_state.md R26). -/
structure RepeatCache where
  valid : Bool
  addr  : Byte
  cmd   : Byte
deriving DecidableEq, Repr

/-- CommandSink: the last command, whether the consumer has acknowledged it, and whether it came from a repeat frame
(10_state.md R27). -/
structure CommandSink where
  cmd      : Byte
  consumed : Bool
  isRepeat : Bool
deriving DecidableEq, Repr

/-- The nine status codes of 30_encoding.md R81. -/
inductive Status where
  | accepted
  | repeated
  | repeatEmpty
  | insufficientEvents
  | invalidPreamble
  | invalidBitTiming
  | checksumMismatch
  | shortFrame
  | bufferOverflow
deriving DecidableEq, Repr

/-- A diagnostic event (30_encoding.md R80). A field the emitting rule does not name is 0, so it has that default. -/
structure Diag where
  status       : Status
  isRepeat     : Bool := false
  addressValid : Bool := false
  commandValid : Bool := false
  address      : Byte := 0
  command      : Byte := 0
  bitCount     : Byte := 0
  bits         : Payload := 0
deriving DecidableEq, Repr

/-- The output of FrameDecoder (41_idle_decode.md R125). `bitCount` counts the bits decoded (log entry 7, DESIGN CHOICE). -/
inductive DecodeResult where
  | insufficientEvents
  | invalidPreamble
  | repeatFrame
  | invalidBitTiming
  | newFrame (bits : Payload) (bitCount : Nat)
deriving DecidableEq, Repr

/-- What the host presents in one instant: the reset input and the transaction words. No word is `in_valid = 0`; one is
the ordinary case of 30_encoding.md R70; several are the simultaneous arrivals of 60_exceptions.md R208. -/
structure Presentation where
  rst   : Bool
  words : List InWord
deriving DecidableEq, Repr

/-- What one step takes from the input: nothing, the reset input, or one word. -/
inductive Input where
  | nothing
  | reset
  | word (w : InWord)
deriving DecidableEq, Repr

/-- The phase of the decode-cycle state machine, which is no register (10_state.md R30). -/
inductive Phase where
  | idle
  | capturing
deriving DecidableEq, Repr

/-- The block's registers (R20), the event port of the step just performed, and the host's coming input. -/
structure State where
  /-- EdgeLog, entry 0 the oldest; `log.len` is its length and a cell at or above it is empty (R21, R22; log entry 5, DESIGN CHOICE). -/
  log    : List EdgeEvent
  /-- `last_ts`, the timestamp of the most recently appended edge (R25). -/
  lastTs : Timestamp
  cache  : RepeatCache
  sink   : CommandSink
  /-- The event of the step that led here: what `diag_valid` and `diag` show in that step (30_encoding.md R79). It is
  no register: every step writes it and no rule reads it (R80; log entry 2, DESIGN CHOICE). -/
  event  : Option Diag
  /-- The model's own: what the host will present, the next instant first (log entry 1, DESIGN CHOICE). -/
  inputs : List Presentation
  /-- The model's own: how many choices of `ARRIVAL_ORDER` have been drawn (log entry 3, DESIGN CHOICE). -/
  draws  : Nat
deriving DecidableEq, Repr

/-- Why the model stops with a fault. The block itself has none (60_exceptions.md R200). -/
inductive Fault where
  /-- Raised by `State.readEntry` when a rule reads the log cell at `index`, at or above `log.len`, which holds no value
  (10_state.md R22, 92_eei_decisions.md D32). No rule does, so no step raises it. Safe. -/
  | emptyLogCell (index : Nat)
deriving DecidableEq, Repr

/-- Why the model gives a step no meaning. -/
inductive Refusal where
  /-- Raised by `step` for a word that spells no transaction (30_encoding.md R76). Safe: nothing is claimed of what
  follows, and the run has no further state, which is the refusal mark R76 asks for (log entry 6, DESIGN CHOICE). -/
  | illegalWord (why : IllegalWord)
  /-- Raised by an arm of `exec` whose instruction has no meaning yet. No arm is left so. Safe. -/
  | notModelled (mnemonic : String)
deriving DecidableEq, Repr

/-- The state right after reset (70_reset_and_hazards.md R230, 10_state.md R20). R232 would also allow `sink.cmd` to be left
open (log entry 12, DESIGN CHOICE); the values of the model's own fields are log entries 1 and 3, DESIGN CHOICE. -/
def State.reset : State where
  log    := []
  lastTs := 0
  cache  := { valid := false, addr := 0x00, cmd := 0x00 }
  sink   := { cmd := 0x00, consumed := true, isRepeat := false }
  event  := none
  inputs := []
  draws  := 0

end Sys2Proof.Machine
end

