-- ==== Sys2Proof/Machine/Operands.lean ====
section
/-! DEFINITION. Operand forms: timestamps and durations at their width, the tolerance window, the classification of a bit period, the accumulation of bits and
the split of a payload into bytes. -/

namespace Sys2Proof.Machine

/-- What is kept of a timestamp or a duration: its low `TS_WIDTH` bits, all 64 on this hardware (00_scope.md R8; log entry
8, DESIGN CHOICE). -/
def tsFit (c : Config) (t : Timestamp) : Timestamp := (t.setWidth c.tsWidth).setWidth 64

/-- `a − b` on timestamps and durations: `(a − b) mod 2^TS_WIDTH`, `sub64` on this hardware (R12, R8). -/
def tsSub (c : Config) (a b : Timestamp) : Timestamp := tsFit c (sub64 a b)

/-- `value` is in the window around `target`: `target − SLACK < value < target + SLACK`, both strict, the bounds
computed in mathematical integers (41_idle_decode.md R134, 00_scope.md R12). -/
def inWin (c : Config) (v : Timestamp) (target : Nat) : Bool :=
  decide ((target : Int) - (c.slack : Int) < (v.toNat : Int)) &&
    decide ((v.toNat : Int) < (target : Int) + (c.slack : Int))

/-- The bit a falling-to-falling period stands for, logic 1 tested first, or none when it is in neither window
(R130). -/
def classifyPeriod (c : Config) (delta : Timestamp) : Option Bool :=
  if inWin c delta c.tBit1 then some true
  else if inWin c delta c.tBit0 then some false
  else none

/-- `((bits << 1) | b) mod 2^32` (R131). -/
def shiftIn (bits : Payload) (b : Bool) : Payload := (bits <<< 1) ||| (BitVec.ofBool b).zeroExtend 32

/-- `address = bits[31:24]` (42_validate_repeat.md R161). -/
def Payload.address (bits : Payload) : Byte := bits.extractLsb' 24 8

/-- `address_complement = bits[23:16]` (R161). -/
def Payload.addressComplement (bits : Payload) : Byte := bits.extractLsb' 16 8

/-- `command = bits[15:8]` (R161). -/
def Payload.command (bits : Payload) : Byte := bits.extractLsb' 8 8

/-- `command_complement = bits[7:0]` (R161). -/
def Payload.commandComplement (bits : Payload) : Byte := bits.extractLsb' 0 8

end Sys2Proof.Machine
end

