-- ==== Sys2Proof/Machine/Flags.lean ====
section
/-! DEFINITION. The checksum flags (42_validate_repeat.md R162), the status codes (30_encoding.md R81) and the
diagnostic word (R80). -/

namespace Sys2Proof.Machine

/-- `(byte ^ complement) == 0xFF` (R162). -/
def complementOk (b complement : Byte) : Bool := b ^^^ complement == 0xFF#8

/-- `address_valid` (R162). -/
def addressValid (bits : Payload) : Bool := complementOk (Payload.address bits) (Payload.addressComplement bits)

/-- `command_valid` (R162). -/
def commandValid (bits : Payload) : Bool := complementOk (Payload.command bits) (Payload.commandComplement bits)

/-- The 4-bit code of a status (30_encoding.md R81). -/
def Status.code : Status → BitVec 4
  | .accepted => 0x1
  | .repeated => 0x2
  | .repeatEmpty => 0x3
  | .insufficientEvents => 0x4
  | .invalidPreamble => 0x5
  | .invalidBitTiming => 0x6
  | .checksumMismatch => 0x7
  | .shortFrame => 0x8
  | .bufferOverflow => 0x9

/-- The good outcomes: `Accepted` is status ACCEPTED or REPEAT, every other status is `Discarded`
(41_idle_decode.md R122). -/
def Status.isAccepted : Status → Bool
  | .accepted => true
  | .repeated => true
  | .repeatEmpty => false
  | .insufficientEvents => false
  | .invalidPreamble => false
  | .invalidBitTiming => false
  | .checksumMismatch => false
  | .shortFrame => false
  | .bufferOverflow => false

/-- The error kinds of 60_exceptions.md R201. -/
def Status.isError : Status → Bool
  | .accepted => false
  | .repeated => false
  | .repeatEmpty => false
  | .insufficientEvents => true
  | .invalidPreamble => true
  | .invalidBitTiming => true
  | .checksumMismatch => true
  | .shortFrame => true
  | .bufferOverflow => true

/-- The 64-bit diagnostic word, `bits` highest and `status` lowest, bit 7 always 0 (30_encoding.md R80). -/
def Diag.word (d : Diag) : BitVec 64 :=
  d.bits ++ d.bitCount ++ d.command ++ d.address ++ 0#1 ++ BitVec.ofBool d.commandValid ++
    BitVec.ofBool d.addressValid ++ BitVec.ofBool d.isRepeat ++ d.status.code

end Sys2Proof.Machine
end

