-- ==== Sys2Proof/Machine/Ops.lean ====
section
/-! DEFINITION. The operations the transactions share: the log's append, clear and snapshot (00_scope.md R13), the
event, the writes of CommandSink and RepeatCache, reset, and taking the next input. Taking an exception and returning
from one do not exist on this hardware (60_exceptions.md R200), so there is no such operation. -/

namespace Sys2Proof.Machine

/-- The outcome of a step of this machine. -/
abbrev StepOutcome := Host.Outcome State Fault Refusal

/-! ### The EdgeLog -/

/-- `log.len` (10_state.md R21). -/
def State.logLen (s : State) : Nat := s.log.length

/-- `LogAppend(kind, ts)`: the entry goes to index `log.len`, and `last_ts <- ts` in the same transaction (R13, R25). -/
def State.logAppend (s : State) (kind : EdgeKind) (ts : Timestamp) : State :=
  { s with log := s.log ++ [⟨kind, ts⟩], lastTs := ts }

/-- `LogClear()`: `log.len <- 0`; the cells hold no value until written anew (R13, R22). -/
def State.logClear (s : State) : State := { s with log := [] }

/-- The read of the log cell at `i`: an empty cell has no value to give, and reading it is a fault (R22, D32). -/
def State.readEntry (s : State) (i : Nat) : Except Fault EdgeEvent :=
  match s.log[i]? with
  | some e => .ok e
  | none => .error (.emptyLogCell i)

/-- The `n` entries from index `i` on, in order. -/
def State.readEntries (s : State) (i : Nat) : Nat → Except Fault (List EdgeEvent)
  | 0 => .ok []
  | n + 1 =>
    match s.readEntry i, s.readEntries (i + 1) n with
    | .ok e, .ok es => .ok (e :: es)
    | .error f, _ => .error f
    | .ok _, .error f => .error f

/-- `Snapshot()`: entries `0 .. log.len − 1`, an immutable value (R13). -/
def State.snapshot (s : State) : Except Fault (List EdgeEvent) := s.readEntries 0 s.logLen

/-- The phase: `Idle` when `log.len = 0`, `Capturing` otherwise (10_state.md R30). -/
def State.phase (s : State) : Phase := if s.logLen = 0 then .idle else .capturing

/-! ### The event of a transaction -/

/-- `emit(Diag{...})` (30_encoding.md R80). -/
def State.emit (s : State) (d : Diag) : State := { s with event := some d }

/-- A transaction that emits nothing leaves `diag_valid = 0` (R82). -/
def State.noEvent (s : State) : State := { s with event := none }

/-! ### CommandSink and RepeatCache -/

/-- `SinkWrite(cmd, rep)`: the decoder's one write, of all three registers at once (42_validate_repeat.md R172). -/
def State.sinkWrite (s : State) (cmd : Byte) (rep : Bool) : State :=
  { s with sink := { cmd := cmd, consumed := false, isRepeat := rep } }

/-- RepeatCache takes the accepted pair (R166). -/
def State.cacheWrite (s : State) (addr cmd : Byte) : State :=
  { s with cache := { valid := true, addr := addr, cmd := cmd } }

/-! ### Reset -/

/-- `RESET()`: every register takes its reset value, log cells become empty, no event (70_reset_and_hazards.md R230).
What the host presents next is no register of the block and stays. -/
def State.resetBlock (s : State) : State :=
  { State.reset with inputs := s.inputs, draws := s.draws }

/-! ### The input -/

/-- Which of the words of one instant is performed next, and which still wait. With one word there is nothing to choose.
With several the choice is `ARRIVAL_ORDER`'s (60_exceptions.md R208; log entry 3, DESIGN CHOICE). -/
def chooseWord (c : Config) (draw : Nat) (w : InWord) (waiting : List InWord) : InWord × List InWord :=
  let all := w :: waiting
  let k := c.arrivalOrder draw % all.length
  (all.getD k w, all.eraseIdx k)

/-- Takes one step's input from what the host presents. `rst` has priority and the words presented with it are
discarded (R77, R230; log entry 13, DEDUCED). -/
def State.takeInput (c : Config) (s : State) : Input × State :=
  match s.inputs with
  | [] => (.nothing, s)
  | p :: later =>
    if p.rst then (.reset, { s with inputs := later })
    else
      match p.words with
      | [] => (.nothing, { s with inputs := later })
      | [w] => (.word w, { s with inputs := later })
      | w :: w' :: ws =>
        let chosen := chooseWord c s.draws w (w' :: ws)
        (.word chosen.1, { s with inputs := { p with words := chosen.2 } :: later, draws := s.draws + 1 })

/-- The host presents a word next, alone in its instant (30_encoding.md R70). -/
def State.present (s : State) (w : InWord) : State :=
  { s with inputs := { rst := false, words := [w] } :: s.inputs }

end Sys2Proof.Machine
end

