-- ==== Sys2Proof/Machine/Ports.lean ====
section
/-! DEFINITION. The output ports (30_encoding.md R79). -/

namespace Sys2Proof.Machine

/-- The values the block drives. -/
structure Ports where
  sinkCmd      : Byte
  sinkConsumed : BitVec 1
  sinkIsRepeat : BitVec 1
  logLen       : BitVec 7
  diagValid    : BitVec 1
  diag         : BitVec 64
deriving DecidableEq, Repr

/-- `diag_valid`: 1 in the step of a transaction that emits, else 0 (R79). -/
def diagValidPort (event : Option Diag) : BitVec 1 := BitVec.ofBool event.isSome

/-- `diag`: the diagnostic word when `diag_valid = 1`, 0 otherwise (R79). -/
def diagPort (event : Option Diag) : BitVec 64 :=
  match event with
  | some d => d.word
  | none => 0

/-- The ports in the step that led to `s`: combinational reads, with no side effect (R79, 20_memory.md R58). -/
def State.ports (s : State) : Ports where
  sinkCmd      := s.sink.cmd
  sinkConsumed := BitVec.ofBool s.sink.consumed
  sinkIsRepeat := BitVec.ofBool s.sink.isRepeat
  logLen       := BitVec.ofNat 7 s.logLen
  diagValid    := diagValidPort s.event
  diag         := diagPort s.event

end Sys2Proof.Machine
end

