-- ==== Sys2Proof/Machine/Capture.lean ====
section
/-! DEFINITION. EdgeCapture: the EDGE transaction (40_capture.md). -/

namespace Sys2Proof.Machine

/-- EDGE under the parameters `c` (R101): append while the log has room; otherwise discard the whole log, the new edge
with it, and emit BUFFER_OVERFLOW (R102). Neither timestamp order nor alternation is checked (R103). -/
def edge (c : Config) (kind : EdgeKind) (ts : Timestamp) (s : State) : StepOutcome :=
  if s.logLen < c.logCapacity then .next (s.logAppend kind (tsFit c ts)).noEvent
  else .next (s.logClear.emit { status := .bufferOverflow })

/-- EDGE on this hardware. -/
def execEdge (kind : EdgeKind) (ts : Timestamp) (s : State) : StepOutcome := edge Config.hw kind ts s

end Sys2Proof.Machine
end

