-- ==== Sys2Proof/Machine/Consumer.lean ====
section
/-! DEFINITION. The consumer's side of CommandSink: ACK and CLEAR (43_host.md). -/

namespace Sys2Proof.Machine

/-- ACK: `sink.consumed <- 1`, nothing else (R190). -/
def execAck (s : State) : StepOutcome :=
  .next { s with sink := { s.sink with consumed := true } }.noEvent

/-- CLEAR under the parameters `c`: the three sink registers, RepeatCache untouched (R191). -/
def clear (c : Config) (s : State) : StepOutcome :=
  .next { s with sink := { cmd := c.sinkClearValue, consumed := true, isRepeat := false } }.noEvent

/-- CLEAR on this hardware. -/
def execClear (s : State) : StepOutcome := clear Config.hw s

end Sys2Proof.Machine
end

