-- ==== Sys2Proof/Machine/FrameDecoder.lean ====
section
/-! DEFINITION. FrameDecoder: a pure function from a snapshot to a `DecodeResult` (41_idle_decode.md section 2). -/

namespace Sys2Proof.Machine

/-- The loop over the entries after index 2 (R129 to R133): `prev` is the timestamp of the previous falling entry,
`bits` and `cnt` what has been accumulated. -/
def decodeBits (c : Config) : List EdgeEvent → Timestamp → Payload → Nat → DecodeResult
  | [], _, bits, cnt => .newFrame bits cnt
  | e :: es, prev, bits, cnt =>
    if cnt = c.frameBits then .newFrame bits cnt
    else
      match e.kind with
      | .rising => decodeBits c es prev bits cnt
      | .falling =>
        match classifyPeriod c (tsSub c e.ts prev) with
        | some b => decodeBits c es e.ts (shiftIn bits b) (cnt + 1)
        | none => .invalidBitTiming

/-- The checks of the first three entries, then the classification by the start space, the repeat window first
(R126, R127, R128). -/
def frameDecode (c : Config) : List EdgeEvent → DecodeResult
  | e0 :: e1 :: e2 :: rest =>
    if ¬ (e0.kind = .falling ∧ e1.kind = .rising ∧ e2.kind = .falling) then .invalidPreamble
    else if ¬ inWin c (tsSub c e1.ts e0.ts) c.tStartPulse then .invalidPreamble
    else if inWin c (tsSub c e2.ts e1.ts) c.tSpaceRepeat then .repeatFrame
    else if ¬ inWin c (tsSub c e2.ts e1.ts) c.tSpaceNew then .invalidPreamble
    else decodeBits c rest e2.ts 0 0
  | _ => .insufficientEvents

end Sys2Proof.Machine
end

