-- ==== Sys2Proof/Machine/Validator.lean ====
section
/-! DEFINITION. The second half of a decode cycle: FrameValidator and RepeatCache (42_validate_repeat.md). -/

namespace Sys2Proof.Machine

/-- What `ValidateFrame` reports of a payload, under the status it comes to (R164). -/
def frameDiag (status : Status) (bits : Payload) (n : Nat) : Diag :=
  { status := status
    isRepeat := false
    addressValid := addressValid bits
    commandValid := commandValid bits
    address := Payload.address bits
    command := Payload.command bits
    bitCount := BitVec.ofNat 8 n
    bits := bits }

/-- Acceptance: RepeatCache takes the pair and CommandSink the command in one transaction (R166). -/
def acceptFrame (bits : Payload) (n : Nat) (s : State) : State :=
  ((s.cacheWrite (Payload.address bits) (Payload.command bits)).sinkWrite (Payload.command bits) false).emit
    (frameDiag .accepted bits n)

/-- `ValidateFrame(bits, n)` (R164, R165, R167). -/
def validateFrame (c : Config) (bits : Payload) (n : Nat) (s : State) : State :=
  if n < c.frameBits ∧ (c.shortFramePolicy = .reject ∨ ¬ (addressValid bits && commandValid bits)) then
    s.emit (frameDiag .shortFrame bits n)
  else if addressValid bits && commandValid bits then acceptFrame bits n s
  else s.emit (frameDiag .checksumMismatch bits n)

/-- `RepeatFrame()` (R170): a hit replays the cached command, an empty cache writes nothing. -/
def repeatFrame (s : State) : State :=
  if s.cache.valid then
    (s.sinkWrite s.cache.cmd true).emit
      { status := .repeated, isRepeat := true, address := s.cache.addr, command := s.cache.cmd }
  else s.emit { status := .repeatEmpty, isRepeat := true }

/-- What a decode cycle does with FrameDecoder's result (41_idle_decode.md R122). For the decoder's errors every field
but the status is 0. -/
def conclude (c : Config) (r : DecodeResult) (s : State) : State :=
  match r with
  | .insufficientEvents => s.emit { status := .insufficientEvents }
  | .invalidPreamble => s.emit { status := .invalidPreamble }
  | .invalidBitTiming => s.emit { status := .invalidBitTiming }
  | .repeatFrame => repeatFrame s
  | .newFrame bits n => validateFrame c bits n s

end Sys2Proof.Machine
end

