-- ==== Sys2Proof/Machine/IdleDetector.lean ====
section
/-! DEFINITION. IdleDetector: the TICK transaction and the decode cycle it runs (41_idle_decode.md section 1). -/

namespace Sys2Proof.Machine

/-- `gap > IDLE_THRESHOLD` with `gap = now − last_ts` modulo 2^TS_WIDTH, strict (R121, R123). -/
def State.isIdleAt (c : Config) (s : State) (now : Timestamp) : Bool :=
  decide (c.idleThreshold < (tsSub c now s.lastTs).toNat)

/-- The decode cycle: snapshot, clear whatever the outcome, decode, conclude, in one atomic update (R122). -/
def decodeCycle (c : Config) (s : State) : StepOutcome :=
  match s.snapshot with
  | .ok snap => .next (conclude c (frameDecode c snap) s.logClear)
  | .error f => .fault f

/-- TICK under the parameters `c` (R121). -/
def tick (c : Config) (now : Timestamp) (s : State) : StepOutcome :=
  if s.logLen = 0 then .next s.noEvent
  else if ¬ s.isIdleAt c now then .next s.noEvent
  else decodeCycle c s

/-- TICK on this hardware. -/
def execTick (now : Timestamp) (s : State) : StepOutcome := tick Config.hw now s

end Sys2Proof.Machine
end

