-- ==== Sys2Proof/Machine/Dispatch.lean ====
section
/-! DEFINITION. One arm per transaction. -/

namespace Sys2Proof.Machine

/-- The effect of one transaction on the state (00_scope.md R14). -/
def exec (i : Instr) (s : State) : Host.Outcome State Fault Refusal :=
  match i with
  | .edge kind ts => Sys2Proof.Machine.execEdge kind ts s
  | .tick now => Sys2Proof.Machine.execTick now s
  | .ack => Sys2Proof.Machine.execAck s
  | .clear => Sys2Proof.Machine.execClear s

end Sys2Proof.Machine
end

