-- ==== Sys2Proof/Machine/Run.lean ====
section
/-! DEFINITION. What a step does with the input it has taken, and runs of several steps. -/

namespace Sys2Proof.Machine

/-- Performs an input on the state it was taken from: reset, one transaction, or a refusal by name (00_scope.md R14;
30_encoding.md R70, R76, R77). With neither `rst` nor a word nothing happens and nothing is emitted (log entry 4, DESIGN
CHOICE). -/
def perform : Input × State → StepOutcome
  | (.nothing, s) => .next s.noEvent
  | (.reset, s) => .next s.resetBlock
  | (.word w, s) =>
    match decode w with
    | .ok i => exec i s
    | .error why => .refused (.illegalWord why)

/-- Words performed one after the other in the order of the list, up to the first fault or refusal (60_exceptions.md
R208). -/
def performWords : List InWord → State → StepOutcome
  | [], s => .next s
  | w :: ws, s =>
    match perform (.word w, s) with
    | .next s' => performWords ws s'
    | .fault f => .fault f
    | .refused r => .refused r

/-- `n` steps of this hardware with a given `ARRIVAL_ORDER` (00_scope.md R8). -/
def stepsInOrder (order : Nat → Nat) : Nat → State → StepOutcome
  | 0, s => .next s
  | n + 1, s =>
    match perform (s.takeInput { Config.hw with arrivalOrder := order }) with
    | .next s' => stepsInOrder order n s'
    | .fault f => .fault f
    | .refused r => .refused r

end Sys2Proof.Machine
end

