-- ==== Sys2Proof/Machine/Step.lean ====
section
/-! DEFINITION. One step: take what the host presents and perform it. -/

namespace Sys2Proof.Machine

/-- One step of the block (00_scope.md R7, R14): take what the host presents and perform it. -/
def step (s : State) : Host.Outcome State Fault Refusal :=
  perform (s.takeInput Config.hw)

/-- `s` with a word presented so that the very next step performs it (log entry 1, DESIGN CHOICE). The port has 68 wires. -/
def State.withFetchWord (s : State) (nbits w : Nat) : State := s.present (BitVec.ofNat 68 (w % 2 ^ nbits))

end Sys2Proof.Machine
end

