-- ==== Sys2Proof/Machine/Trace.lean ====
section
/-! DEFINITION. The host's side of the interface: the pseudo-instructions (30_encoding.md R84), the trace syntax (R83)
and what a trace presents to the block. The block sees only the words. -/

namespace Sys2Proof.Machine

/-! ### Pseudo-instructions -/

/-- The eight bits of a byte, most significant first (R84). -/
def byteBits (b : Byte) : List Bool :=
  [b.getLsbD 7, b.getLsbD 6, b.getLsbD 5, b.getLsbD 4, b.getLsbD 3, b.getLsbD 2, b.getLsbD 1, b.getLsbD 0]

/-- The falling-to-falling period of a bit (R84). -/
def bitPeriod (c : Config) (b : Bool) : Timestamp := BitVec.ofNat 64 (if b then c.tBit1 else c.tBit0)

/-- The edges after the falling edge at `f`: a rising edge `T_UNIT` after it, and for each period the falling edge that
closes it; the last rising edge ends the final burst (R84). -/
def periodEdges (c : Config) (f : Timestamp) : List Timestamp → List EdgeEvent
  | [] => [⟨.rising, f + BitVec.ofNat 64 c.tUnit⟩]
  | d :: ds => ⟨.rising, f + BitVec.ofNat 64 c.tUnit⟩ :: ⟨.falling, f + d⟩ :: periodEdges c (f + d) ds

/-- The three edges of a preamble with the given start pulse and start space. -/
def preambleEdges (t0 pulse space : Timestamp) : List EdgeEvent :=
  [⟨.falling, t0⟩, ⟨.rising, t0 + pulse⟩, ⟨.falling, t0 + pulse + space⟩]

/-- The edges of a new frame with the given bits, in sending order. -/
def frameEdges (c : Config) (t0 : Timestamp) (bs : List Bool) : List EdgeEvent :=
  preambleEdges t0 (BitVec.ofNat 64 c.tStartPulse) (BitVec.ofNat 64 c.tSpaceNew) ++
    periodEdges c (t0 + BitVec.ofNat 64 c.tStartPulse + BitVec.ofNat 64 c.tSpaceNew) (bs.map (bitPeriod c))

/-- The 68 edges of `NECFRAME t0, b0, b1, b2, b3` (R84). Timestamps are added modulo 2^64 (log entry 9, DESIGN CHOICE). -/
def necFrameEdges (c : Config) (t0 : Timestamp) (b0 b1 b2 b3 : Byte) : List EdgeEvent :=
  frameEdges c t0 (byteBits b0 ++ byteBits b1 ++ byteBits b2 ++ byteBits b3)

/-- The 3 edges of `NECREPEAT t0` (R84). -/
def necRepeatEdges (c : Config) (t0 : Timestamp) : List EdgeEvent :=
  preambleEdges t0 (BitVec.ofNat 64 c.tStartPulse) (BitVec.ofNat 64 c.tSpaceRepeat)

/-- The EDGE that notifies the block of an edge. -/
def EdgeEvent.toInstr (e : EdgeEvent) : Instr := .edge e.kind e.ts

/-- `NECFRAME`, as the EDGEs it expands to (R84). -/
def necFrame (c : Config) (t0 : Timestamp) (b0 b1 b2 b3 : Byte) : List Instr :=
  (necFrameEdges c t0 b0 b1 b2 b3).map EdgeEvent.toInstr

/-- `NECREPEAT`, as the EDGEs it expands to (R84). -/
def necRepeat (c : Config) (t0 : Timestamp) : List Instr := (necRepeatEdges c t0).map EdgeEvent.toInstr

/-! ### Traces -/

/-- One line of a trace: a transaction, or `RESET`, which is the `rst` input and no word (R83). -/
inductive TraceLine where
  | txn (i : Instr)
  | reset
deriving DecidableEq, Repr

/-- What a line presents to the block: one word alone, or `rst` (R83, R70). -/
def TraceLine.presentation : TraceLine → Presentation
  | .txn i => { rst := false, words := [encode i] }
  | .reset => { rst := true, words := [] }

/-- A whole trace, in the order presented (R83). -/
def State.presentTrace (s : State) (ls : List TraceLine) : State :=
  { s with inputs := s.inputs ++ ls.map TraceLine.presentation }

/-- A run of transactions without resets, stopping at the first fault or refusal (70_reset_and_hazards.md R239). -/
def execAll : List Instr → State → StepOutcome
  | [], s => .next s
  | i :: is, s =>
    match exec i s with
    | .next s' => execAll is s'
    | .fault f => .fault f
    | .refused r => .refused r

/-! ### The text of a trace line (R83; the lexical details are log entry 9, DESIGN CHOICE) -/

/-- The value of a digit in a base up to 16. -/
def digitValue (base : Nat) (ch : Char) : Option Nat :=
  let n := ch.toNat
  let v := if 48 ≤ n ∧ n ≤ 57 then n - 48
    else if 65 ≤ n ∧ n ≤ 70 then n - 55
    else if 97 ≤ n ∧ n ≤ 102 then n - 87
    else base
  if v < base then some v else none

/-- The value of a string of digits, read left to right after `acc`. -/
def digitsValue (base : Nat) : List Char → Nat → Option Nat
  | [], acc => some acc
  | ch :: cs, acc =>
    match digitValue base ch with
    | some v => digitsValue base cs (acc * base + v)
    | none => none

/-- A number: decimal unless written `0x..`, at most `limit - 1` (R83). -/
def readNumber (limit : Nat) (cs : List Char) : Option Nat :=
  let v := match cs with
    | '0' :: 'x' :: d :: ds => digitsValue 16 (d :: ds) 0
    | d :: ds => digitsValue 10 (d :: ds) 0
    | [] => none
  match v with
  | some n => if n < limit then some n else none
  | none => none

/-- A timestamp operand. -/
def readTimestamp (cs : List Char) : Option Timestamp := (readNumber (2 ^ 64) cs).map (BitVec.ofNat 64)

/-- A byte operand of NECFRAME. -/
def readByte (cs : List Char) : Option Byte := (readNumber (2 ^ 8) cs).map (BitVec.ofNat 8)

/-- Splits a line at blanks and commas, up to the comment that `;` starts; `acc` is the token being read, reversed. -/
def tokens : List Char → List Char → List (List Char)
  | [], acc => if acc.isEmpty then [] else [acc.reverse]
  | ch :: cs, acc =>
    if ch = ';' then (if acc.isEmpty then [] else [acc.reverse])
    else if ch = ' ' ∨ ch = '\t' ∨ ch = ',' then
      (if acc.isEmpty then tokens cs [] else acc.reverse :: tokens cs [])
    else tokens cs (ch :: acc)

/-- The lines of the trace a text line stands for: none for a comment or an empty line, several for a
pseudo-instruction; `none` for text that is no line of a trace (R83, R84). -/
def readLine (c : Config) (line : List Char) : Option (List TraceLine) :=
  match tokens line [] with
  | [] => some []
  | [['E', 'D', 'G', 'E'], ['F'], t] => (readTimestamp t).map fun ts => [.txn (.edge .falling ts)]
  | [['E', 'D', 'G', 'E'], ['R'], t] => (readTimestamp t).map fun ts => [.txn (.edge .rising ts)]
  | [['T', 'I', 'C', 'K'], t] => (readTimestamp t).map fun ts => [.txn (.tick ts)]
  | [['A', 'C', 'K']] => some [.txn .ack]
  | [['C', 'L', 'E', 'A', 'R']] => some [.txn .clear]
  | [['R', 'E', 'S', 'E', 'T']] => some [.reset]
  | [['N', 'E', 'C', 'F', 'R', 'A', 'M', 'E'], t, b0, b1, b2, b3] =>
    match readTimestamp t, readByte b0, readByte b1, readByte b2, readByte b3 with
    | some t0, some v0, some v1, some v2, some v3 => some ((necFrame c t0 v0 v1 v2 v3).map .txn)
    | _, _, _, _, _ => none
  | [['N', 'E', 'C', 'R', 'E', 'P', 'E', 'A', 'T'], t] =>
    (readTimestamp t).map fun t0 => (necRepeat c t0).map .txn
  | _ => none

end Sys2Proof.Machine
end

