-- ==== Sys2Proof/Safety.lean ====
section
/-! DEFINITION. What is true of the block in every state a run can reach, and when two states look the same to the
host. -/

namespace Sys2Proof.Machine

/-- `0 ≤ log.len ≤ C` (10_state.md R21). -/
def State.LogBounded (c : Config) (s : State) : Prop := s.log.length ≤ c.logCapacity

/-- Whenever `log.len > 0`, `last_ts = log.ts[log.len − 1]` (R25). -/
def State.LastTsAgrees (s : State) : Prop := ∀ e, s.log.getLast? = some e → s.lastTs = e.ts

/-- A command the consumer has not acknowledged, or one marked as a repeat, is the cached command, and the cache holds
one: the decoder writes CommandSink only with the command it caches or finds cached (42_validate_repeat.md R166, R170,
R173). -/
def State.SinkFromCache (s : State) : Prop :=
  (s.sink.consumed = false ∨ s.sink.isRepeat = true) → s.cache.valid = true ∧ s.sink.cmd = s.cache.cmd

/-- While the cache is empty its pair has the reset value (R20, R26). -/
def State.EmptyCacheClear (s : State) : Prop := s.cache.valid = false → s.cache.addr = 0 ∧ s.cache.cmd = 0

/-- A decode error or overflow, like every decode cycle, leaves the log empty (60_exceptions.md R202): in the step of
an event the log is empty. -/
def State.EventClearsLog (s : State) : Prop := s.event ≠ none → s.log = []

/-- The invariant of the block. -/
structure State.Inv (s : State) : Prop where
  logBounded : s.LogBounded Config.hw
  lastTsAgrees : s.LastTsAgrees
  sinkFromCache : s.SinkFromCache
  emptyCacheClear : s.EmptyCacheClear
  eventClearsLog : s.EventClearsLog

/-- Two states no host can tell apart by any input: they differ at most in `last_ts` while the log is empty
(10_state.md R25) and in the cached pair while the cache is empty (R20: "not read while `cache.valid = 0`"). -/
structure State.SameToHost (s t : State) : Prop where
  log : s.log = t.log
  lastTs : s.log = [] ∨ s.lastTs = t.lastTs
  cacheValid : s.cache.valid = t.cache.valid
  cachePair : s.cache.valid = false ∨ (s.cache.addr = t.cache.addr ∧ s.cache.cmd = t.cache.cmd)
  sink : s.sink = t.sink
  event : s.event = t.event
  inputs : s.inputs = t.inputs
  draws : s.draws = t.draws

/-- Equal but for CommandSink, which the decoder never reads (R27). -/
def State.EqualButSink (s t : State) : Prop := { s with sink := t.sink } = t

/-! ### The decoder's rules, declaratively

Written from the rules' integer ranges and lists of periods, beside the decoder's loop. -/

/-- The accepted ranges of a bit period in µs: logic 1 is 2051 .. 2449, logic 0 is 926 .. 1324 (41_idle_decode.md
R130). -/
def periodBit (d : Timestamp) : Option Bool :=
  if 2051 ≤ d.toNat ∧ d.toNat ≤ 2449 then some true
  else if 926 ≤ d.toNat ∧ d.toNat ≤ 1324 then some false
  else none

/-- The periods between consecutive falling entries, the first from the falling edge at `prev`; rising entries are
ignored (R129). -/
def fallingPeriods (prev : Timestamp) : List EdgeEvent → List Timestamp
  | [] => []
  | e :: es =>
    match e.kind with
    | .rising => fallingPeriods prev es
    | .falling => sub64 e.ts prev :: fallingPeriods e.ts es

/-- The payload of a list of bits, the first received most significant (R131). -/
def payloadOf (bs : List Bool) : Payload := bs.foldl shiftIn 0

/-- The one status a decode cycle of this log reports: the first that applies, in the order of 60_exceptions.md R204,
under a short-frame policy and with or without a cached command. -/
def reportedStatus (p : ShortFramePolicy) (cached : Bool) : List EdgeEvent → Status
  | e0 :: e1 :: e2 :: rest =>
    let pulse := (sub64 e1.ts e0.ts).toNat
    let space := (sub64 e2.ts e1.ts).toNat
    let periods := (fallingPeriods e2.ts rest).take 32
    let bits := payloadOf (periods.filterMap periodBit)
    if ¬ (e0.kind = .falling ∧ e1.kind = .rising ∧ e2.kind = .falling) ∨ ¬ (9101 ≤ pulse ∧ pulse ≤ 9499) then
      .invalidPreamble
    else if 2051 ≤ space ∧ space ≤ 2449 then (if cached then .repeated else .repeatEmpty)
    else if ¬ (4301 ≤ space ∧ space ≤ 4699) then .invalidPreamble
    else if periods.any (fun d => periodBit d == none) then .invalidBitTiming
    else if periods.length < 32 ∧
        (p = .reject ∨ ¬ (addressValid bits = true ∧ commandValid bits = true)) then .shortFrame
    else if addressValid bits = true ∧ commandValid bits = true then .accepted
    else .checksumMismatch
  | _ => .insufficientEvents

/-- A run is safe when it never stops on a fault. A refusal is the host's illegal word (30_encoding.md R76). -/
def SafeOutcome (o : StepOutcome) : Prop := ∀ f, o ≠ .fault f

end Sys2Proof.Machine
end

