-- ==== Sys2Proof/Certificates/Slice0/Obligations.lean ====
section
/-! DEFINITION. The statements for the provers. A statement about every state quantifies over states no run reaches
too; where it needs one ruled out it says so. -/

open Sys2Proof Sys2Proof.Machine

/-! ### Words (30_encoding.md) -/

/-- The words of 95_test_vectors.md 2.1 decode to the transactions they stand for, and its illegal words to none. -/
def Obligations.WrittenOutWordsDecode : Prop :=
  decode 0x00000000000000000#68 = .ok (.edge .falling 0) ∧
  decode 0x20000000000002454#68 = .ok (.edge .rising 9300) ∧
  decode 0x4000000000001321B#68 = .ok (.tick 78363) ∧
  decode 0x80000000000000000#68 = .ok .ack ∧
  decode 0xC0000000000000000#68 = .ok .clear ∧
  decode 0x0FFFFFFFFFFFFFFFF#68 = .ok (.edge .falling 18446744073709551615) ∧
  decode 0x10000000000000005#68 = .error .reservedBitSet ∧
  decode 0x60000000000000005#68 = .error .kindOnTick ∧
  decode 0x50000000000000000#68 = .error .reservedBitSet ∧
  decode 0x80000000000000001#68 = .error .nonzeroFieldOnBare ∧
  decode 0xE0000000000000000#68 = .error .nonzeroFieldOnBare

/-- Decoding the word of a transaction gives that transaction back, with every operand (R71 to R74, R85). -/
def Obligations.DecodeOfEncodeIsTheTransaction : Prop :=
  ∀ i : Instr, decode (encode i) = .ok i

/-- A word that decodes to a transaction is that transaction's word: no bit of a word is dropped and no two words spell
the same transaction (R75, R85). -/
def Obligations.EachTransactionHasOneWord : Prop :=
  ∀ (w : InWord) (i : Instr), decode w = .ok i → encode i = w

/-- R75 and R85: which words are legal, by their fields and by the (match, mask) pairs, which operands they hold, and that
every word is exactly one legal transaction or illegal. -/
def Obligations.LegalWordsAreThoseOfTheTable : Prop :=
  opcodeRows.map (fun r => (r.mnemonic, r.pattern, r.mask)) =
    [("EDGE", 0x00000000000000000#68, 0xD0000000000000000#68), ("TICK", 0x40000000000000000#68, 0xF0000000000000000#68),
     ("ACK", 0x80000000000000000#68, 0xFFFFFFFFFFFFFFFFF#68), ("CLEAR", 0xC0000000000000000#68, 0xFFFFFFFFFFFFFFFFF#68)] ∧
  ∀ w : InWord,
    (∀ kind ts, decode w = .ok (.edge kind ts) ↔ w.extractLsb' 66 2 = 0b00#2 ∧ w.extractLsb' 64 1 = 0#1 ∧
      kind = (if w.getLsbD 65 then .rising else .falling) ∧ ts = w.extractLsb' 0 64) ∧
    (∀ now, decode w = .ok (.tick now) ↔
      w.extractLsb' 66 2 = 0b01#2 ∧ w.extractLsb' 65 1 = 0#1 ∧ w.extractLsb' 64 1 = 0#1 ∧ now = w.extractLsb' 0 64) ∧
    (decode w = .ok .ack ↔ w.extractLsb' 66 2 = 0b10#2 ∧ w.extractLsb' 0 66 = 0#66) ∧
    (decode w = .ok .clear ↔ w.extractLsb' 66 2 = 0b11#2 ∧ w.extractLsb' 0 66 = 0#66) ∧
    (rowsOf w).map (·.mnemonic) = (match decode w with | .ok i => [i.mnemonic] | .error _ => [])

/-- The words a trace's lines assemble to, as shifts (R83). -/
def Obligations.TraceLinesAssembleToShiftedWords : Prop :=
  (∀ t : Timestamp,
    encode (.edge .falling t) = t.setWidth 68 ∧
    encode (.edge .rising t) = (1#68 <<< 65) ||| t.setWidth 68 ∧
    encode (.tick t) = (1#68 <<< 66) ||| t.setWidth 68) ∧
  encode .ack = 2#68 <<< 66 ∧ encode .clear = 3#68 <<< 66

/-! ### Steps (00_scope.md R14, 30_encoding.md R70, R76, R77, 60_exceptions.md R208) -/

/-- When one word is presented and decodes to `i`, the step is `exec i` on the state whose first presentation has been
taken. -/
def Obligations.StepPerformsTheDecodedTransaction : Prop :=
  ∀ (s : State) (w : InWord) (later : List Presentation) (i : Instr),
    s.inputs = ⟨false, [w]⟩ :: later → decode w = .ok i → step s = exec i { s with inputs := later }

/-- R76: a word with a reserved bit set, `kind = 1` on a TICK, or a nonzero field on ACK or CLEAR is refused by name,
and no state follows. -/
def Obligations.IllegalWordsAreRefused : Prop :=
  ∀ (s : State) (w : InWord) (later : List Presentation),
    s.inputs = ⟨false, [w]⟩ :: later →
    ((w.extractLsb' 66 2 = 0b00#2 ∨ w.extractLsb' 66 2 = 0b01#2) ∧ w.extractLsb' 64 1 = 1#1 ∨
      w.extractLsb' 66 2 = 0b01#2 ∧ w.extractLsb' 65 1 = 1#1 ∨
      (w.extractLsb' 66 2 = 0b10#2 ∨ w.extractLsb' 66 2 = 0b11#2) ∧ w.extractLsb' 0 66 ≠ 0#66) →
    ∃ why, step s = .refused (.illegalWord why)

/-- With neither `rst` nor a word presented a step changes nothing and emits nothing. The model's choice (log entry 4, DESIGN CHOICE):
the spec gives a step no effect without an input. -/
def Obligations.StepWithoutInputDoesNothing : Prop :=
  ∀ (s : State) (later : List Presentation),
    (s.inputs = [] → step s = .next { s with event := none }) ∧
    (s.inputs = ⟨false, []⟩ :: later → step s = .next { s with inputs := later, event := none })

/-- `rst` resets every register in one update, with no event; it has priority and a word presented with it is discarded;
the ports then show an idle block, and a repeat frame finds an empty cache (R230). The model's choices in it: that several
words presented with `rst` are all discarded, and that the later presentations and the count of draws keep their values
(log entry 13, DEDUCED); and that `sink.cmd` takes R230's 0x00 and not the draw R232 allows (log entry 12). -/
def Obligations.ResetTakesPriorityAndResetsEveryRegister : Prop :=
  ∀ (s : State) (words : List InWord) (later : List Presentation),
    s.inputs = ⟨true, words⟩ :: later →
    ∃ t, step s = .next t ∧
      t = { log := [], lastTs := 0, cache := { valid := false, addr := 0x00, cmd := 0x00 },
            sink := { cmd := 0x00, consumed := true, isRepeat := false },
            event := none, inputs := later, draws := s.draws } ∧
      t.ports = { sinkCmd := 0x00, sinkConsumed := 1, sinkIsRepeat := 0, logLen := 0, diagValid := 0, diag := 0 } ∧
      (repeatFrame t).event.map (·.status) = some .repeatEmpty

/-- Words presented in the same instant are performed one at a time: a step performs one of them, whichever
`ARRIVAL_ORDER` is, or refuses it when it is illegal (R208, R76). The model's choices in it: that the others wait in their
order, ahead of every later presentation (log entry 13, DEDUCED), and that the step draws one choice (log entry 3, DESIGN
CHOICE). -/
def Obligations.SimultaneousWordsArePerformedOneByOne : Prop :=
  ∀ (s : State) (words : List InWord) (later : List Presentation),
    s.inputs = ⟨false, words⟩ :: later → 2 ≤ words.length →
    ∃ before w after, words = before ++ w :: after ∧
      step s = (match decode w with
        | .ok i => exec i { s with inputs := ⟨false, before ++ after⟩ :: later, draws := s.draws + 1 }
        | .error why => .refused (.illegalWord why))

/-- Every order is admitted: for every rearrangement of the words of an instant there is an `ARRIVAL_ORDER` under which as
many steps as there are words perform them in that order, one after the other (R208); and the steps of this hardware are
the steps under its own `ARRIVAL_ORDER`. The model's choices in it: that one choice is drawn for each word but the last
(log entry 3, DESIGN CHOICE), and that the later presentations wait until the instant's words are performed (log entry 13,
DEDUCED). -/
def Obligations.EveryArrivalOrderIsAdmitted : Prop :=
  (∀ (s : State) (words arranged : List InWord) (later : List Presentation),
    s.inputs = ⟨false, words⟩ :: later → words ≠ [] → arranged.Perm words →
    ∃ order : Nat → Nat,
      stepsInOrder order words.length s =
        performWords arranged { s with inputs := later, draws := s.draws + (words.length - 1) }) ∧
  ∀ s : State, stepsInOrder Config.hw.arrivalOrder 1 s = step s

/-- Any word of an instant of several can be the next one, for some value of `ARRIVAL_ORDER`, at every draw (R208). The
model's choices in it: that the others wait in their order (log entry 13, DEDUCED) and that one choice is drawn (log entry
3, DESIGN CHOICE). -/
def Obligations.AnyWaitingWordCanBeNext : Prop :=
  ∀ (s : State) (before : List InWord) (w : InWord) (after : List InWord) (later : List Presentation),
    s.inputs = ⟨false, before ++ w :: after⟩ :: later → before ++ after ≠ [] →
    ∃ order : Nat → Nat,
      s.takeInput { Config.hw with arrivalOrder := order } =
        (.word w, { s with inputs := ⟨false, before ++ after⟩ :: later, draws := s.draws + 1 })

/-- The order of an EDGE and a TICK of one instant is observable (R208): on an idle log, TICK first decodes it and the
new edge starts a fresh log; EDGE first joins the old log, and the TICK finds no idle gap. -/
def Obligations.EdgeAndTickDoNotCommute : Prop :=
  ∀ (s : State) (kind : EdgeKind) (t now : Timestamp),
    s.log ≠ [] → s.log.length < 100 → 10000 < (now - s.lastTs).toNat → (now - t).toNat ≤ 10000 →
    (∃ a b, exec (.tick now) s = .next a ∧ a.log = [] ∧ a.event ≠ none ∧
      exec (.edge kind t) a = .next b ∧ b.log = [⟨kind, t⟩] ∧ b.event = none) ∧
    (∃ a b, exec (.edge kind t) s = .next a ∧ a.log = s.log ++ [⟨kind, t⟩] ∧ a.event = none ∧
      exec (.tick now) a = .next b ∧ b.log = s.log ++ [⟨kind, t⟩] ∧ b.event = none ∧
      b.cache = s.cache ∧ b.sink = s.sink)

/-! ### EDGE (40_capture.md) -/

/-- R101: EDGE appends the entry and writes `last_ts` while the log has room, and otherwise clears the log and emits
BUFFER_OVERFLOW; everything else keeps its value. -/
def Obligations.EdgeAppendsOrDiscardsTheLog : Prop :=
  ∀ (kind : EdgeKind) (ts : Timestamp) (s : State),
    exec (.edge kind ts) s = .next (
      if s.log.length < 100 then
        { s with log := s.log ++ [{ kind := kind, ts := ts }], lastTs := ts, event := none }
      else { s with log := [], event := some { status := .bufferOverflow } })

/-- R102: in the overflow branch the new edge is discarded with the log, `last_ts`, RepeatCache and CommandSink keep
their values, and the event word is 0x9. -/
def Obligations.OverflowDiscardsTheEdgeWithTheLog : Prop :=
  ∀ (kind : EdgeKind) (ts : Timestamp) (s : State),
    100 ≤ s.log.length →
    ∃ t, exec (.edge kind ts) s = .next t ∧ t.log = [] ∧ t.lastTs = s.lastTs ∧ t.cache = s.cache ∧ t.sink = s.sink ∧
      t.ports.logLen = 0 ∧ t.ports.diagValid = 1 ∧ t.ports.diag = 0x0000000000000009#64

/-- Edges that fit are stored in the order presented, whatever their kinds and timestamps, with no event, and nothing
else but `last_ts` changes (R101, R103). -/
def Obligations.EdgesThatFitAreStoredInOrder : Prop :=
  ∀ (s : State) (es : List EdgeEvent) (last : EdgeEvent),
    s.log.length + (es ++ [last]).length ≤ 100 →
    execAll ((es ++ [last]).map EdgeEvent.toInstr) s =
      .next { s with log := s.log ++ es ++ [last], lastTs := last.ts, event := none }

/-- 101 edges without a TICK overflow an empty log on the last one, which is not stored: the log is empty, nothing was
decoded, and the next edge is stored at index 0 (R102, R103). -/
def Obligations.OneHundredAndOneEdgesOverflow : Prop :=
  ∀ (s : State) (es : List EdgeEvent) (e101 e102 : EdgeEvent),
    s.log = [] → es.length = 100 →
    ∃ t u, execAll ((es ++ [e101]).map EdgeEvent.toInstr) s = .next t ∧
      t.log = [] ∧ t.event = some { status := .bufferOverflow } ∧ t.cache = s.cache ∧ t.sink = s.sink ∧
      es.getLast?.map (·.ts) = some t.lastTs ∧
      exec (.edge e102.kind e102.ts) t = .next u ∧ u.log = [e102] ∧ u.event = none

/-! ### TICK (41_idle_decode.md) -/

/-- R121: TICK does nothing on an empty log, nothing while the gap is at most 10000, and otherwise runs one decode
cycle; the gap is the difference modulo 2^64. -/
def Obligations.TickDecodesOnlyAnIdleLog : Prop :=
  ∀ (now : Timestamp) (s : State),
    (s.log = [] → exec (.tick now) s = .next { s with event := none }) ∧
    (s.log ≠ [] → (now - s.lastTs).toNat ≤ 10000 → exec (.tick now) s = .next { s with event := none }) ∧
    (s.log ≠ [] → 10000 < (now - s.lastTs).toNat → exec (.tick now) s = decodeCycle Config.hw s)

/-- R122: a decode cycle completes, inside the TICK that triggers it; it clears the log whatever the outcome, and what it
emits and writes follows from FrameDecoder's result on the log as it stood. It counts as accepted exactly for ACCEPTED and
REPEAT. -/
def Obligations.DecodeCycleClearsTheLogAndConcludes : Prop :=
  ∀ s : State, ∃ t d,
    decodeCycle Config.hw s = .next t ∧
    (∀ now : Timestamp, s.log ≠ [] → 10000 < (now - s.lastTs).toNat → exec (.tick now) s = .next t) ∧
    t.log = [] ∧ t.event = some d ∧
    (d.status.isAccepted = true ↔ d.status = .accepted ∨ d.status = .repeated) ∧
    t = (match frameDecode Config.hw s.log with
      | .insufficientEvents => { s with log := [], event := some { status := .insufficientEvents } }
      | .invalidPreamble => { s with log := [], event := some { status := .invalidPreamble } }
      | .invalidBitTiming => { s with log := [], event := some { status := .invalidBitTiming } }
      | .repeatFrame => repeatFrame { s with log := [] }
      | .newFrame bits n => validateFrame Config.hw bits n { s with log := [] })

/-- TICK completes on every log and at every time, and what it leaves unchanged: `last_ts`, the log, cache and sink
when it emits nothing, the cache but for ACCEPTED, the sink but for ACCEPTED and REPEAT (R121, R122, R173). -/
def Obligations.TickCompletesWithinItsFrame : Prop :=
  ∀ (now : Timestamp) (s : State), ∃ t, exec (.tick now) s = .next t ∧
    t.lastTs = s.lastTs ∧ t.inputs = s.inputs ∧ t.draws = s.draws ∧
    (t.event = none → t.log = s.log ∧ t.cache = s.cache ∧ t.sink = s.sink) ∧
    ∀ d, t.event = some d → t.log = [] ∧ (d.status ≠ .accepted → t.cache = s.cache) ∧
      (d.status ≠ .accepted → d.status ≠ .repeated → t.sink = s.sink)

/-- A TICK whose time is before `last_ts` wraps: it decodes at once unless `last_ts − now ≥ 2^64 − 10000` (R123). -/
def Obligations.TickBeforeTheLastEdgeWraps : Prop :=
  ∀ (now : Timestamp) (s : State),
    s.log ≠ [] → now.toNat < s.lastTs.toNat →
    exec (.tick now) s =
      if s.lastTs.toNat - now.toNat < 2 ^ 64 - 10000 then decodeCycle Config.hw s else .next { s with event := none }

/-! ### FrameDecoder (41_idle_decode.md section 2) -/

/-- R126: fewer than three entries are `InsufficientEvents`; a wrong kind among the first three is
`InvalidPreamble`. -/
def Obligations.ShortLogsAndWrongKindsAreRejected : Prop :=
  (∀ es : List EdgeEvent, es.length < 3 → frameDecode Config.hw es = .insufficientEvents) ∧
  ∀ (e0 e1 e2 : EdgeEvent) (rest : List EdgeEvent),
    e0.kind ≠ .falling ∨ e1.kind ≠ .rising ∨ e2.kind ≠ .falling →
    frameDecode Config.hw (e0 :: e1 :: e2 :: rest) = .invalidPreamble

/-- R127 and R128: a start pulse outside 9101 .. 9499 is an invalid preamble; inside it, the start space decides: 2051 ..
2449 is a repeat frame whatever follows, 4301 .. 4699 goes on to the data bits, anything else is an invalid
preamble. -/
def Obligations.PreambleIsClassifiedByPulseAndSpace : Prop :=
  ∀ (t0 t1 t2 : Timestamp) (rest : List EdgeEvent),
    (¬ (9101 ≤ (t1 - t0).toNat ∧ (t1 - t0).toNat ≤ 9499) →
      frameDecode Config.hw (⟨.falling, t0⟩ :: ⟨.rising, t1⟩ :: ⟨.falling, t2⟩ :: rest) = .invalidPreamble) ∧
    (9101 ≤ (t1 - t0).toNat → (t1 - t0).toNat ≤ 9499 →
      frameDecode Config.hw (⟨.falling, t0⟩ :: ⟨.rising, t1⟩ :: ⟨.falling, t2⟩ :: rest) =
        if 2051 ≤ (t2 - t1).toNat ∧ (t2 - t1).toNat ≤ 2449 then .repeatFrame
        else if 4301 ≤ (t2 - t1).toNat ∧ (t2 - t1).toNat ≤ 4699 then decodeBits Config.hw rest t2 0 0
        else .invalidPreamble)

/-- The window is strict at both ends, in mathematical integers, each window of this hardware is the closed range of the
rule's table, and a duration that wrapped, of a later entry with a smaller timestamp, is 2^64 less the difference and lies
in no window when the difference is at most 2^64 − 9500 (R134, R12). A larger difference wraps to less than 9500 µs, which
may lie in a window. -/
def Obligations.WindowsAreTheClosedRangesOfTheTable : Prop :=
  (∀ earlier later : Timestamp, later.toNat < earlier.toNat →
    (sub64 later earlier).toNat = 2 ^ 64 - (earlier.toNat - later.toNat) ∧
    (earlier.toNat - later.toNat ≤ 2 ^ 64 - 9500 →
      ∀ target ∈ [9300, 2250, 4500, 2250, 1125], inWin Config.hw (sub64 later earlier) target = false)) ∧
  ∀ v : Timestamp,
    (∀ target : Nat, inWin Config.hw v target = true ↔
      (target : Int) - 200 < (v.toNat : Int) ∧ (v.toNat : Int) < (target : Int) + 200) ∧
    (inWin Config.hw v Config.hw.tStartPulse = true ↔ 9101 ≤ v.toNat ∧ v.toNat ≤ 9499) ∧
    (inWin Config.hw v Config.hw.tSpaceRepeat = true ↔ 2051 ≤ v.toNat ∧ v.toNat ≤ 2449) ∧
    (inWin Config.hw v Config.hw.tSpaceNew = true ↔ 4301 ≤ v.toNat ∧ v.toNat ≤ 4699) ∧
    (inWin Config.hw v Config.hw.tBit1 = true ↔ 2051 ≤ v.toNat ∧ v.toNat ≤ 2449) ∧
    (inWin Config.hw v Config.hw.tBit0 = true ↔ 926 ≤ v.toNat ∧ v.toNat ≤ 1324)

/-- For the default targets the two bit windows overlap exactly when the slack is at least 564, and in an overlap logic 1
wins (R135). -/
def Obligations.BitWindowsOverlapFromSlack564 : Prop :=
  ∀ slack : Nat,
    ((∃ v : Timestamp, inWin { Config.hw with slack := slack } v 2250 = true ∧
        inWin { Config.hw with slack := slack } v 1125 = true) ↔ 564 ≤ slack) ∧
    ∀ v : Timestamp, inWin { Config.hw with slack := slack } v 2250 = true →
      classifyPeriod { Config.hw with slack := slack } v = some true

/-- R130: a period of 2051 .. 2449 appends a 1, of 926 .. 1324 a 0, and every other period aborts the frame and discards
the bits accumulated. -/
def Obligations.PeriodsAppendABitOrAbort : Prop :=
  ∀ (ts prev : Timestamp) (es : List EdgeEvent) (bits : Payload) (cnt : Nat),
    cnt < 32 →
    decodeBits Config.hw (⟨.falling, ts⟩ :: es) prev bits cnt =
      if 2051 ≤ (ts - prev).toNat ∧ (ts - prev).toNat ≤ 2449 then
        decodeBits Config.hw es ts (shiftIn bits true) (cnt + 1)
      else if 926 ≤ (ts - prev).toNat ∧ (ts - prev).toNat ≤ 1324 then
        decodeBits Config.hw es ts (shiftIn bits false) (cnt + 1)
      else .invalidBitTiming

/-- Rising entries after index 2 change nothing, whatever their number, place and timestamps (R129). -/
def Obligations.RisingEntriesAfterThePreambleAreIgnored : Prop :=
  ∀ (e0 e1 e2 : EdgeEvent) (rest : List EdgeEvent),
    frameDecode Config.hw (e0 :: e1 :: e2 :: rest) =
      frameDecode Config.hw (e0 :: e1 :: e2 :: rest.filter (fun e => e.kind == .falling))

/-- The decoder's loop computes what the rules say of the list of periods: the first 32 at most, each classified; a frame
of the bits in order, or an abort when one of them is in neither range (R129 to R133). -/
def Obligations.DecoderLoopRefinesThePeriodList : Prop :=
  ∀ (rest : List EdgeEvent) (prev : Timestamp),
    decodeBits Config.hw rest prev 0 0 =
      if ((fallingPeriods prev rest).take 32).any (fun d => periodBit d == none) then .invalidBitTiming
      else .newFrame (payloadOf (((fallingPeriods prev rest).take 32).filterMap periodBit))
        ((fallingPeriods prev rest).take 32).length

/-- R131: bits are shifted in at bit 0: of `k ≤ 32` bits the `j`-th received stands at bit `k − 1 − j`, so the first of
32 is bit 31, and every bit from `k` up is 0; and a new frame's payload is that of the bits its periods stand for. -/
def Obligations.FirstBitReceivedIsMostSignificant : Prop :=
  (∀ (bits : Payload) (b : Bool), (shiftIn bits b).toNat = (2 * bits.toNat + b.toNat) % 2 ^ 32) ∧
  ∀ bs : List Bool, bs.length ≤ 32 →
    (∀ (j : Nat) (h : j < bs.length), (payloadOf bs).getLsbD (bs.length - 1 - j) = bs[j]) ∧
    (∀ k, bs.length ≤ k → (payloadOf bs).getLsbD k = false) ∧
    ∀ (rest : List EdgeEvent) (prev : Timestamp), (fallingPeriods prev rest).map periodBit = bs.map some →
      decodeBits Config.hw rest prev 0 0 = .newFrame (payloadOf bs) bs.length

/-- Once 32 bits are accumulated every later entry is ignored unseen (R132). -/
def Obligations.EntriesAfterThe32ndBitAreIgnored : Prop :=
  ∀ (es more : List EdgeEvent) (bits : Payload),
    frameDecode Config.hw es = .newFrame bits 32 → frameDecode Config.hw (es ++ more) = .newFrame bits 32

/-- The bit count of a new frame is 0 .. 32 and its payload has no bit at or above it (R131, R133). -/
def Obligations.NewFramesHaveAtMost32RightAlignedBits : Prop :=
  ∀ (es : List EdgeEvent) (bits : Payload) (n : Nat),
    frameDecode Config.hw es = .newFrame bits n → n ≤ 32 ∧ bits.toNat < 2 ^ n

/-- Any preamble and periods within the windows decode to their bits: the decoder tolerates every timing the windows
allow (R127 to R133). -/
def Obligations.FramesWithinTheWindowsDecode : Prop :=
  ∀ (t0 pulse space : Timestamp) (ds : List Timestamp) (bs : List Bool),
    9101 ≤ pulse.toNat → pulse.toNat ≤ 9499 → 4301 ≤ space.toNat → space.toNat ≤ 4699 → ds.length ≤ 32 →
    ds.map periodBit = bs.map some →
    frameDecode Config.hw (preambleEdges t0 pulse space ++ periodEdges Config.hw (t0 + pulse + space) ds) =
      .newFrame (payloadOf bs) bs.length

/-- One bad period among the first 32 discards the whole frame, whatever comes after it (R130; the source's property
4). -/
def Obligations.OneBadPeriodDiscardsTheFrame : Prop :=
  ∀ (t0 pulse space bad : Timestamp) (ds after : List Timestamp),
    9101 ≤ pulse.toNat → pulse.toNat ≤ 9499 → 4301 ≤ space.toNat → space.toNat ≤ 4699 → ds.length < 32 →
    periodBit bad = none →
    frameDecode Config.hw
      (preambleEdges t0 pulse space ++ periodEdges Config.hw (t0 + pulse + space) (ds ++ bad :: after)) =
      .invalidBitTiming

/-- The source's round trip: the edges of `NECFRAME t0, b0, b1, b2, b3` decode to those four bytes, the first most
significant (R84, R53, R161). It is said of every start time; of those near 2^64, where R84's plain sums do not fit a
timestamp, it rests on the model's choice to add modulo 2^64 (log entry 9, DESIGN CHOICE). -/
def Obligations.NecFrameRoundTrip : Prop :=
  ∀ (t0 : Timestamp) (b0 b1 b2 b3 : Byte),
    frameDecode Config.hw (necFrameEdges Config.hw t0 b0 b1 b2 b3) = .newFrame (b0 ++ b1 ++ b2 ++ b3) 32

/-! ### FrameValidator, RepeatCache, CommandSink (42_validate_repeat.md) -/

/-- R162: each flag is true exactly when its complement byte is the bitwise inverse, the two independently, and both are in
the event whatever the outcome. -/
def Obligations.FlagsHoldExactlyForInvertedBytes : Prop :=
  ∀ a ac c cc : Byte,
    (addressValid (a ++ ac ++ c ++ cc) = true ↔ a ^^^ ac = 0xFF#8) ∧
    (commandValid (a ++ ac ++ c ++ cc) = true ↔ c ^^^ cc = 0xFF#8) ∧
    (a ^^^ ac = 0xFF#8 ↔ ac = ~~~a) ∧ (c ^^^ cc = 0xFF#8 ↔ cc = ~~~c) ∧
    ∀ (p : ShortFramePolicy) (n : Nat) (s : State),
      (validateFrame { Config.hw with shortFramePolicy := p } (a ++ ac ++ c ++ cc) n s).event.map
          (fun d => (d.addressValid, d.commandValid)) =
        some (decide (a ^^^ ac = 0xFF#8), decide (c ^^^ cc = 0xFF#8))

/-- R164 and R165: what ValidateFrame emits and writes, under either short-frame policy. -/
def Obligations.ValidateFrameAcceptsOrReports : Prop :=
  ∀ (p : ShortFramePolicy) (bits : Payload) (n : Nat) (s : State), n ≤ 32 →
    let address := bits.extractLsb' 24 8
    let command := bits.extractLsb' 8 8
    let av := address ^^^ bits.extractLsb' 16 8 == 0xFF#8
    let cv := command ^^^ bits.extractLsb' 0 8 == 0xFF#8
    let d : Status → Diag := fun st =>
      { status := st, isRepeat := false, addressValid := av, commandValid := cv, address := address,
        command := command, bitCount := BitVec.ofNat 8 n, bits := bits }
    validateFrame { Config.hw with shortFramePolicy := p } bits n s =
      if n < 32 ∧ (p = .reject ∨ ¬ (av = true ∧ cv = true)) then { s with event := some (d .shortFrame) }
      else if av = true ∧ cv = true then
        { s with cache := { valid := true, addr := address, cmd := command },
                 sink := { cmd := command, consumed := false, isRepeat := false },
                 event := some (d .accepted) }
      else { s with event := some (d .checksumMismatch) }

/-- R163: with this hardware's policy a frame is accepted exactly when it has 32 bits and both flags are true; otherwise
neither RepeatCache nor CommandSink is written, and a frame of 32 bits is a checksum mismatch. -/
def Obligations.OnlyFullValidFramesAreAccepted : Prop :=
  ∀ (bits : Payload) (n : Nat) (s : State), n ≤ 32 →
    ((validateFrame Config.hw bits n s).event.map (·.status) = some .accepted ↔
      n = 32 ∧ addressValid bits = true ∧ commandValid bits = true) ∧
    (¬ (n = 32 ∧ addressValid bits = true ∧ commandValid bits = true) →
      (validateFrame Config.hw bits n s).cache = s.cache ∧ (validateFrame Config.hw bits n s).sink = s.sink ∧
      (n = 32 → (validateFrame Config.hw bits n s).event.map (·.status) = some .checksumMismatch))

/-- A decoded short frame can pass both checksums only when it has 24 .. 31 bits (R165). -/
def Obligations.ShortFramesPassChecksumsOnlyFrom24Bits : Prop :=
  ∀ (es : List EdgeEvent) (bits : Payload) (n : Nat),
    frameDecode Config.hw es = .newFrame bits n → addressValid bits = true → commandValid bits = true → 24 ≤ n

/-- A full frame of inverted bytes in an idle log is accepted: the cache takes the pair, the sink the command, the event
both bytes and the payload (R122, R166). -/
def Obligations.IdleTickAcceptsAValidFrame : Prop :=
  ∀ (now : Timestamp) (s : State) (address command : Byte),
    10000 < (now - s.lastTs).toNat →
    frameDecode Config.hw s.log = .newFrame (address ++ ~~~address ++ command ++ ~~~command) 32 →
    exec (.tick now) s =
      .next { s with
        log := []
        cache := { valid := true, addr := address, cmd := command }
        sink := { cmd := command, consumed := false, isRepeat := false }
        event := some { status := .accepted, isRepeat := false, addressValid := true, commandValid := true,
                        address := address, command := command, bitCount := 32,
                        bits := address ++ ~~~address ++ command ++ ~~~command } }

/-- R170: a repeat frame replays the cached command into CommandSink, marked as a repeat and not as a checksum event;
with an empty cache it writes nothing. -/
def Obligations.RepeatFrameReplaysTheCachedCommand : Prop :=
  ∀ s : State, repeatFrame s =
    if s.cache.valid then
      { s with sink := { cmd := s.cache.cmd, consumed := false, isRepeat := true },
               event := some { status := .repeated, isRepeat := true, addressValid := false, commandValid := false,
                               address := s.cache.addr, command := s.cache.cmd, bitCount := 0, bits := 0 } }
    else { s with event := some { status := .repeatEmpty, isRepeat := true, addressValid := false,
                                  commandValid := false, address := 0, command := 0, bitCount := 0, bits := 0 } }

/-- A repeat preamble in an idle log, whatever follows it, ends in REPEAT or REPEAT_EMPTY, with the words of R174's
example for the pair (0x00, 0x10) (R128, R170, R174). -/
def Obligations.IdleTickReplaysOnARepeatFrame : Prop :=
  ∀ (now t0 pulse space : Timestamp) (more : List EdgeEvent) (s : State),
    s.log = preambleEdges t0 pulse space ++ more → 10000 < (now - s.lastTs).toNat →
    9101 ≤ pulse.toNat → pulse.toNat ≤ 9499 → 2051 ≤ space.toNat → space.toNat ≤ 2449 →
    ∃ t, exec (.tick now) s = .next t ∧ t.log = [] ∧ t.cache = s.cache ∧
      (s.cache.valid = true → t.sink = { cmd := s.cache.cmd, consumed := false, isRepeat := true } ∧
        t.event.map (·.status) = some .repeated) ∧
      (s.cache = { valid := true, addr := 0x00, cmd := 0x10 } → t.ports.diag = 0x0000000000100012#64) ∧
      (s.cache.valid = false → t.sink = s.sink ∧ t.ports.diag = 0x0000000000000013#64)

/-- The source's property 6, on the machine: capturing `NECFRAME t0, a, ~a, c, ~c` in an empty log and then a TICK at an
idle time gives ACCEPTED with `a` and `c`, from every such state (R84, R101, R121, R166). It is said of every start time;
of those near 2^64, where R84's plain sums do not fit a timestamp, it rests on the model's choice to add modulo 2^64 (log
entry 9, DESIGN CHOICE). -/
def Obligations.CapturedNecFrameIsAccepted : Prop :=
  ∀ (s : State) (t0 now : Timestamp) (a c : Byte),
    s.log = [] →
    ∃ t, execAll (necFrame Config.hw t0 a (~~~a) c (~~~c)) s = .next t ∧
      (10000 < (now - t.lastTs).toNat →
        ∃ u, exec (.tick now) t = .next u ∧ u.log = [] ∧
          u.cache = { valid := true, addr := a, cmd := c } ∧
          u.sink = { cmd := c, consumed := false, isRepeat := false } ∧
          u.event.map (fun d => (d.status, d.address, d.command)) = some (.accepted, a, c))

/-! ### ACK and CLEAR (43_host.md) -/

/-- R190: ACK sets `sink.consumed` and nothing else, with no event; and its word. -/
def Obligations.AckMarksTheCommandConsumed : Prop :=
  encode .ack = 0x80000000000000000#68 ∧
  ∀ s : State, exec .ack s =
    .next { s with sink := { cmd := s.sink.cmd, consumed := true, isRepeat := s.sink.isRepeat }, event := none }

/-- R191: CLEAR writes the three sink registers and nothing else, RepeatCache included, with no event; and its word. -/
def Obligations.ClearEmptiesTheSinkButNotTheCache : Prop :=
  encode .clear = 0xC0000000000000000#68 ∧
  ∀ s : State, exec .clear s =
    .next { s with sink := { cmd := 0x00, consumed := true, isRepeat := false }, event := none }

/-- The race of an ACK and a decoder write (R193): the write first, the ACK marks the new command consumed; the ACK
first, the new command stays unconsumed. -/
def Obligations.AckRacesADecoderWrite : Prop :=
  ∀ (now : Timestamp) (s t : State) (d : Diag),
    exec (.tick now) s = .next t → t.event = some d → d.status.isAccepted = true →
    (∃ u, exec .ack t = .next u ∧ u.sink.consumed = true ∧ u.sink.cmd = t.sink.cmd) ∧
    (∃ a u, exec .ack s = .next a ∧ exec (.tick now) a = .next u ∧
      u.sink.consumed = false ∧ u.sink.cmd = t.sink.cmd)

/-! ### Events and ports (30_encoding.md R79 to R82, 60_exceptions.md) -/

/-- The status codes of the table, each its own, none of them 0x0 or 0xA .. 0xF (R81, R82). -/
def Obligations.StatusCodesAreThoseOfTheTable : Prop :=
  ([Status.accepted, .repeated, .repeatEmpty, .insufficientEvents, .invalidPreamble, .invalidBitTiming,
    .checksumMismatch, .shortFrame, .bufferOverflow].map Status.code =
    [0x1#4, 0x2#4, 0x3#4, 0x4#4, 0x5#4, 0x6#4, 0x7#4, 0x8#4, 0x9#4]) ∧
  (∀ st : Status, 1 ≤ st.code.toNat ∧ st.code.toNat ≤ 9) ∧
  ∀ st st' : Status, st.code = st'.code → st = st'

/-- Every field of an event stands at its place in the diagnostic word, and bit 7 is 0 (R80). -/
def Obligations.DiagnosticWordHoldsEveryField : Prop :=
  ∀ d : Diag,
    d.word.extractLsb' 0 4 = d.status.code ∧ d.word.getLsbD 4 = d.isRepeat ∧ d.word.getLsbD 5 = d.addressValid ∧
    d.word.getLsbD 6 = d.commandValid ∧ d.word.getLsbD 7 = false ∧ d.word.extractLsb' 8 8 = d.address ∧
    d.word.extractLsb' 16 8 = d.command ∧ d.word.extractLsb' 24 8 = d.bitCount ∧ d.word.extractLsb' 32 32 = d.bits

/-- R79: what the ports show. -/
def Obligations.PortsShowRegistersAndTheEvent : Prop :=
  ∀ s : State,
    s.ports.sinkCmd = s.sink.cmd ∧
    (s.ports.sinkConsumed = 1 ↔ s.sink.consumed = true) ∧
    (s.ports.sinkIsRepeat = 1 ↔ s.sink.isRepeat = true) ∧
    (s.log.length ≤ 100 → s.ports.logLen.toNat = s.log.length) ∧
    (s.event = none → s.ports.diagValid = 0 ∧ s.ports.diag = 0) ∧
    ∀ d, s.event = some d → s.ports.diagValid = 1 ∧ s.ports.diag = d.word

/-- R204: one status is reported per decode cycle, the first that applies in the rule's order, under either short-frame
policy; on this hardware by every TICK that finds the log idle. -/
def Obligations.TickReportsTheFirstStatusThatApplies : Prop :=
  ∀ (now : Timestamp) (s : State),
    s.log ≠ [] → 10000 < (now - s.lastTs).toNat →
    (∀ p : ShortFramePolicy, ∃ t, tick { Config.hw with shortFramePolicy := p } now s = .next t ∧
      t.event.map (·.status) = some (reportedStatus p s.cache.valid s.log)) ∧
    ∃ t, exec (.tick now) s = .next t ∧ t.event.map (·.status) = some (reportedStatus .reject s.cache.valid s.log)

/-- R205: an EDGE can emit only BUFFER_OVERFLOW, a TICK only a decode-cycle status, ACK and CLEAR nothing. -/
def Obligations.EachTransactionEmitsOnlyItsOwnEvents : Prop :=
  ∀ (i : Instr) (s : State), ∃ t, exec i s = .next t ∧
    match i with
    | .edge _ _ => t.event = none ∨ t.event = some { status := .bufferOverflow }
    | .tick _ => ∀ d, t.event = some d → d.status ≠ .bufferOverflow
    | .ack => t.event = none
    | .clear => t.event = none

/-- R202: after every error the log is empty and RepeatCache and CommandSink are as they were. -/
def Obligations.ErrorsLeaveCacheAndSinkAndAnEmptyLog : Prop :=
  ∀ (i : Instr) (s t : State) (d : Diag),
    exec i s = .next t → t.event = some d → d.status.isError = true →
    t.log = [] ∧ t.cache = s.cache ∧ t.sink = s.sink

/-- R173: CommandSink is written only by an accepted frame, a repeat hit, ACK and CLEAR. -/
def Obligations.OnlyGoodDecodesAndTheConsumerWriteTheSink : Prop :=
  ∀ (i : Instr) (s t : State),
    exec i s = .next t → t.sink ≠ s.sink →
    i = .ack ∨ i = .clear ∨ ∃ d, t.event = some d ∧ (d.status = .accepted ∨ d.status = .repeated)

/-- RepeatCache is written only by an accepted new frame, with the event's pair; in a step that takes no transaction only
reset changes it (R26). -/
def Obligations.OnlyAcceptedFramesAndResetWriteTheCache : Prop :=
  ∀ s t : State,
    step s = .next t → t.cache ≠ s.cache →
    (∃ d, t.event = some d ∧ d.status = .accepted ∧ t.cache = { valid := true, addr := d.address, cmd := d.command }) ∨
    ((∃ words later, s.inputs = ⟨true, words⟩ :: later) ∧ t.cache = { valid := false, addr := 0, cmd := 0 })

/-- A stored entry is never modified and only an append writes one: a step keeps the log, empties it, or adds one entry
at its end, and writes `last_ts` only with that entry's timestamp or at reset (R23, R25). -/
def Obligations.LogEntriesAreImmutable : Prop :=
  ∀ s t : State,
    step s = .next t →
    (t.log = s.log ∧ t.lastTs = s.lastTs) ∨ (t.log = [] ∧ (t.lastTs = s.lastTs ∨ t = { State.reset with inputs := t.inputs, draws := t.draws })) ∨
    ∃ e, t.log = s.log ++ [e] ∧ t.lastTs = e.ts

/-! ### The whole machine -/

/-- Every legal transaction completes in one step, from every state (R200). -/
def Obligations.EveryTransactionCompletes : Prop :=
  ∀ (i : Instr) (s : State), ∃ t, exec i s = .next t

/-- No step faults, so no rule reads an empty log cell (R22), and a step is refused exactly when the word it takes is
illegal, by that word's reason (R200, R203, R76). -/
def Obligations.StepsNeverFaultAndRefuseOnlyIllegalWords : Prop :=
  ∀ s : State, SafeOutcome (step s) ∧
    ∀ r, step s = .refused r ↔
      ∃ (w : InWord) (s' : State) (why : IllegalWord),
        s.takeInput Config.hw = (.word w, s') ∧ decode w = .error why ∧ r = .illegalWord why

/-- The invariant holds after reset. -/
def Obligations.InvariantHoldsAfterReset : Prop := State.reset.Inv

/-- Every step keeps the invariant: the log within its capacity, `last_ts` that of the last entry, an unacknowledged or
repeated command equal to the cached one, an empty cache holding its reset pair, and an empty log in the step of an
event (R21, R25, R26, R173, R202). -/
def Obligations.EveryStepKeepsTheInvariant : Prop :=
  ∀ s t : State, s.Inv → step s = .next t → t.Inv

/-- The decoder never reads CommandSink (R27): whatever the sink holds, a transaction has the same event and leaves the
same log, `last_ts` and cache; and what EDGE, TICK and CLEAR write into the sink does not depend on it. -/
def Obligations.NothingReadsTheSink : Prop :=
  ∀ (i : Instr) (s : State) (k : CommandSink), ∃ t u,
    exec i s = .next t ∧ exec i { s with sink := k } = .next u ∧ t.EqualButSink u ∧
    (t.sink = u.sink ∨ (t.sink = s.sink ∧ u.sink = k) ∨ i = .ack)

/-- What the host cannot see stays unseen: from two states that differ at most in `last_ts` under an empty log and in the
pair under an empty cache, the ports show the same, and a step ends the same way in two such states again (R20, R25,
R32). -/
def Obligations.UnreadRegistersAreNeverObservable : Prop :=
  ∀ s t : State, s.SameToHost t → s.ports = t.ports ∧
    match step s, step t with
    | .next s', .next t' => s'.SameToHost t'
    | .refused r, .refused r' => r = r'
    | _, _ => False
end

