-- ==== Sys2Proof/Laws/Config.lean ====
section
/-! SUPPORT. The parameters of this hardware, one lemma each (00_scope.md R8). -/

namespace Sys2Proof.Config

@[simp] theorem hw_logCapacity : hw.logCapacity = 100 := rfl
@[simp] theorem hw_tStartPulse : hw.tStartPulse = 9300 := rfl
@[simp] theorem hw_tSpaceNew : hw.tSpaceNew = 4500 := rfl
@[simp] theorem hw_tSpaceRepeat : hw.tSpaceRepeat = 2250 := rfl
@[simp] theorem hw_tUnit : hw.tUnit = 562 := rfl
@[simp] theorem hw_tBit0 : hw.tBit0 = 1125 := rfl
@[simp] theorem hw_tBit1 : hw.tBit1 = 2250 := rfl
@[simp] theorem hw_slack : hw.slack = 200 := rfl
@[simp] theorem hw_idleThreshold : hw.idleThreshold = 10000 := rfl
@[simp] theorem hw_pollPeriod : hw.pollPeriod = 1000 := rfl
@[simp] theorem hw_frameBits : hw.frameBits = 32 := rfl
@[simp] theorem hw_tsWidth : hw.tsWidth = 64 := rfl
@[simp] theorem hw_shortFramePolicy : hw.shortFramePolicy = .reject := rfl
@[simp] theorem hw_sinkClearValue : hw.sinkClearValue = 0 := rfl
@[simp] theorem hw_arrivalOrder : hw.arrivalOrder = openArrivalOrder := rfl

end Sys2Proof.Config
end

