-- ==== Sys2Proof/Laws/Decode.lean ====
section
/-! SUPPORT. The fields of a word built from its fields (30_encoding.md R71). -/

namespace Sys2Proof.InWord

variable (op : BitVec 2) (kind rsv : BitVec 1) (ts : Timestamp)

/-- A word built from its fields, as a number. -/
theorem ofFields_toNat : (ofFields op kind rsv ts).toNat =
    op.toNat * 2 ^ 66 + kind.toNat * 2 ^ 65 + rsv.toNat * 2 ^ 64 + ts.toNat := by
  have h1 := kind.isLt
  have h2 := rsv.isLt
  have h3 := ts.isLt
  simp only [ofFields, BitVec.toNat_append]
  rw [← Nat.shiftLeft_add_eq_or_of_lt h3, ← Nat.shiftLeft_add_eq_or_of_lt h2, ← Nat.shiftLeft_add_eq_or_of_lt h1]
  simp only [Nat.shiftLeft_eq]
  omega

@[simp] theorem op_ofFields : (ofFields op kind rsv ts).op = op := by
  apply BitVec.eq_of_toNat_eq
  have := op.isLt; have := kind.isLt; have := rsv.isLt; have := ts.isLt
  simp only [InWord.op, BitVec.extractLsb'_toNat, ofFields_toNat, Nat.shiftRight_eq_div_pow]
  omega

@[simp] theorem kindBit_ofFields : (ofFields op kind rsv ts).kindBit = kind := by
  apply BitVec.eq_of_toNat_eq
  have := op.isLt; have := kind.isLt; have := rsv.isLt; have := ts.isLt
  simp only [kindBit, BitVec.extractLsb'_toNat, ofFields_toNat, Nat.shiftRight_eq_div_pow]
  omega

@[simp] theorem rsv_ofFields : (ofFields op kind rsv ts).rsv = rsv := by
  apply BitVec.eq_of_toNat_eq
  have := op.isLt; have := kind.isLt; have := rsv.isLt; have := ts.isLt
  simp only [InWord.rsv, BitVec.extractLsb'_toNat, ofFields_toNat, Nat.shiftRight_eq_div_pow]
  omega

@[simp] theorem ts_ofFields : (ofFields op kind rsv ts).ts = ts := by
  apply BitVec.eq_of_toNat_eq
  have := op.isLt; have := kind.isLt; have := rsv.isLt; have := ts.isLt
  simp only [InWord.ts, BitVec.extractLsb'_toNat, ofFields_toNat, Nat.shiftRight_eq_div_pow]
  omega

/-- A word is its fields. -/
theorem ofFields_eta (w : InWord) : ofFields w.op w.kindBit w.rsv w.ts = w := by
  apply BitVec.eq_of_toNat_eq
  have := w.isLt
  simp only [ofFields_toNat, InWord.op, kindBit, InWord.rsv, InWord.ts, BitVec.extractLsb'_toNat,
    Nat.shiftRight_eq_div_pow]
  omega

/-- `in_word[65:0]` is 0 exactly when the three fields below `op` are. -/
theorem below_eq_zero_iff (w : InWord) : w.below = 0#66 ↔ w.kindBit = 0#1 ∧ w.rsv = 0#1 ∧ w.ts = 0#64 := by
  have := w.isLt
  simp only [← BitVec.toNat_inj, below, kindBit, InWord.rsv, InWord.ts, BitVec.extractLsb'_toNat,
    Nat.shiftRight_eq_div_pow, BitVec.toNat_ofNat]
  omega

end Sys2Proof.InWord

namespace Sys2Proof.EdgeKind

@[simp] theorem ofBit_toBit (k : EdgeKind) : ofBit k.toBit = k := by cases k <;> rfl

@[simp] theorem toBit_ofBit (b : BitVec 1) : (ofBit b).toBit = b := by
  rcases BitVec.eq_zero_or_eq_one b with h | h <;> subst h <;> rfl

end Sys2Proof.EdgeKind
end

