-- ==== Sys2Proof/Laws/Operands.lean ====
section
/-! SUPPORT. Windows, classification and accumulation as facts about numbers. -/

namespace Sys2Proof.Machine

/-- With the full width of 64 bits a timestamp is kept whole (00_scope.md R8). -/
theorem tsFit_of_tsWidth (c : Config) (h : c.tsWidth = 64) (t : Timestamp) : tsFit c t = t := by
  simp [tsFit, h]

/-- What is kept of a timestamp is its remainder modulo 2^TS_WIDTH (R8). -/
theorem tsFit_toNat (c : Config) (h : c.tsWidth ≤ 64) (t : Timestamp) : (tsFit c t).toNat = t.toNat % 2 ^ c.tsWidth := by
  have hlt : t.toNat % 2 ^ c.tsWidth < 2 ^ 64 :=
    (Nat.mod_lt _ (Nat.two_pow_pos _)).trans_le (Nat.pow_le_pow_right (by decide) h)
  rw [tsFit, BitVec.toNat_setWidth, BitVec.toNat_setWidth, Nat.mod_eq_of_lt hlt]

/-- This hardware keeps timestamps whole. -/
@[simp] theorem tsFit_hw (t : Timestamp) : tsFit Config.hw t = t := tsFit_of_tsWidth _ rfl t

/-- With the full width of 64 bits durations are computed modulo 2^64 (R12). -/
theorem tsSub_of_tsWidth (c : Config) (h : c.tsWidth = 64) (a b : Timestamp) : tsSub c a b = a - b :=
  tsFit_of_tsWidth c h _

/-- On this hardware durations are computed modulo 2^64 (R12). -/
@[simp] theorem tsSub_hw (a b : Timestamp) : tsSub Config.hw a b = a - b := tsSub_of_tsWidth _ rfl a b

/-- The window without subtraction (41_idle_decode.md R134). -/
theorem inWin_iff (c : Config) (v : Timestamp) (target : Nat) :
    inWin c v target = true ↔ target < v.toNat + c.slack ∧ v.toNat < target + c.slack := by
  simp only [inWin, Bool.and_eq_true, decide_eq_true_eq]
  omega

/-- The window of this hardware around a target above the slack is a closed range of integers (R134). -/
theorem inWin_hw_iff (v : Timestamp) (target : Nat) (h : 200 ≤ target) :
    inWin Config.hw v target = true ↔ target - 199 ≤ v.toNat ∧ v.toNat ≤ target + 199 := by
  rw [inWin_iff, Config.hw_slack]
  omega

/-- The start-pulse window (R127). -/
theorem inWin_hw_startPulse (v : Timestamp) :
    inWin Config.hw v Config.hw.tStartPulse = true ↔ 9101 ≤ v.toNat ∧ v.toNat ≤ 9499 :=
  inWin_hw_iff v 9300 (by decide)

/-- The repeat-space window (R128). -/
theorem inWin_hw_spaceRepeat (v : Timestamp) :
    inWin Config.hw v Config.hw.tSpaceRepeat = true ↔ 2051 ≤ v.toNat ∧ v.toNat ≤ 2449 :=
  inWin_hw_iff v 2250 (by decide)

/-- The new-frame-space window (R128). -/
theorem inWin_hw_spaceNew (v : Timestamp) :
    inWin Config.hw v Config.hw.tSpaceNew = true ↔ 4301 ≤ v.toNat ∧ v.toNat ≤ 4699 :=
  inWin_hw_iff v 4500 (by decide)

/-- The logic-1 window (R130). -/
theorem inWin_hw_bit1 (v : Timestamp) :
    inWin Config.hw v Config.hw.tBit1 = true ↔ 2051 ≤ v.toNat ∧ v.toNat ≤ 2449 :=
  inWin_hw_iff v 2250 (by decide)

/-- The logic-0 window (R130). -/
theorem inWin_hw_bit0 (v : Timestamp) :
    inWin Config.hw v Config.hw.tBit0 = true ↔ 926 ≤ v.toNat ∧ v.toNat ≤ 1324 :=
  inWin_hw_iff v 1125 (by decide)

/-- A period stands for logic 1 when it is in the logic-1 window, which is tested first (R130). -/
theorem classifyPeriod_eq_true (c : Config) (d : Timestamp) :
    classifyPeriod c d = some true ↔ inWin c d c.tBit1 = true := by
  unfold classifyPeriod
  split
  · next h => simp [h]
  · next h => split <;> simp [h]

/-- A period stands for logic 0 when it is in the logic-0 window and not in the logic-1 window (R130). -/
theorem classifyPeriod_eq_false (c : Config) (d : Timestamp) :
    classifyPeriod c d = some false ↔ inWin c d c.tBit1 = false ∧ inWin c d c.tBit0 = true := by
  unfold classifyPeriod
  split
  · next h => simp [h]
  · next h => split <;> simp_all

/-- A period in neither window stands for no bit (R130). -/
theorem classifyPeriod_eq_none (c : Config) (d : Timestamp) :
    classifyPeriod c d = none ↔ inWin c d c.tBit1 = false ∧ inWin c d c.tBit0 = false := by
  unfold classifyPeriod
  split
  · next h => simp [h]
  · next h => split <;> simp_all

/-- Shifting a bit in doubles the payload modulo 2^32 and adds the bit (R131). -/
theorem shiftIn_toNat (bits : Payload) (b : Bool) :
    (shiftIn bits b).toNat = (2 * bits.toNat + b.toNat) % 2 ^ 32 := by
  have hb : ((BitVec.ofBool b).zeroExtend 32 : Payload) = BitVec.ofNat 32 b.toNat := by cases b <;> rfl
  have hor : ∀ x : Nat, 2 * x ||| b.toNat = 2 * x + b.toNat := fun x => by
    simpa using (Nat.two_pow_add_eq_or_of_lt (i := 1) (b := b.toNat) (by cases b <;> simp) x).symm
  have hlt : b.toNat < 2 := by cases b <;> simp
  unfold shiftIn
  rw [hb, BitVec.toNat_or, BitVec.toNat_shiftLeft, BitVec.toNat_ofNat, Nat.shiftLeft_eq, ← Nat.or_mod_two_pow,
    Nat.pow_succ, Nat.pow_zero, Nat.one_mul, Nat.mul_comm bits.toNat 2, hor]

/-- The new bit is bit 0 and every other bit moves up by one (R131). -/
theorem shiftIn_getLsbD (bits : Payload) (b : Bool) (i : Nat) (h : i < 32) :
    (shiftIn bits b).getLsbD i = if i = 0 then b else bits.getLsbD (i - 1) := by
  rcases i with _ | i <;> cases b <;> simp [shiftIn, h] <;> rfl

/-- Each flag is true exactly when the complement is the bitwise inverse (42_validate_repeat.md R162), one byte at a
time. -/
theorem complementOk_iff_xor (b complement : Byte) : complementOk b complement = true ↔ b ^^^ complement = 0xFF#8 := by
  simp [complementOk]

end Sys2Proof.Machine
end

