-- ==== Sys2Proof/Laws/FrameDecoder.lean ====
section
/-! SUPPORT. FrameDecoder, one equation per kind of entry and one per kind of preamble. -/

namespace Sys2Proof.Machine

variable (c : Config)

@[simp] theorem decodeBits_nil (prev : Timestamp) (bits : Payload) (cnt : Nat) :
    decodeBits c [] prev bits cnt = .newFrame bits cnt := rfl

/-- Once the frame is full every later entry is ignored unseen (41_idle_decode.md R132). -/
@[simp] theorem decodeBits_full (es : List EdgeEvent) (prev : Timestamp) (bits : Payload) :
    decodeBits c es prev bits c.frameBits = .newFrame bits c.frameBits := by
  cases es <;> simp [decodeBits]

/-- A rising entry after index 2 is skipped whatever its timestamp (R129). -/
theorem decodeBits_rising (ts : Timestamp) (es : List EdgeEvent) (prev : Timestamp) (bits : Payload) (cnt : Nat) :
    decodeBits c (⟨.rising, ts⟩ :: es) prev bits cnt = decodeBits c es prev bits cnt := by
  by_cases h : cnt = c.frameBits
  · subst h; simp
  · simp [decodeBits, h]

/-- A falling entry closes a period, which gives a bit (R130, R131). -/
theorem decodeBits_bit (ts : Timestamp) (es : List EdgeEvent) (prev : Timestamp) (bits : Payload) (cnt : Nat) (b : Bool)
    (hcnt : cnt ≠ c.frameBits) (hb : classifyPeriod c (tsSub c ts prev) = some b) :
    decodeBits c (⟨.falling, ts⟩ :: es) prev bits cnt = decodeBits c es ts (shiftIn bits b) (cnt + 1) := by
  simp [decodeBits, hcnt, hb]

/-- A period in neither window aborts the frame (R130). -/
theorem decodeBits_bad (ts : Timestamp) (es : List EdgeEvent) (prev : Timestamp) (bits : Payload) (cnt : Nat)
    (hcnt : cnt ≠ c.frameBits) (hb : classifyPeriod c (tsSub c ts prev) = none) :
    decodeBits c (⟨.falling, ts⟩ :: es) prev bits cnt = .invalidBitTiming := by
  simp [decodeBits, hcnt, hb]

/-- The loop over the entries ends in a frame or in a bad period, never in a preamble result. -/
theorem decodeBits_cases (es : List EdgeEvent) (prev : Timestamp) (bits : Payload) (cnt : Nat) :
    decodeBits c es prev bits cnt = .invalidBitTiming ∨
    ∃ bits' n, decodeBits c es prev bits cnt = .newFrame bits' n := by
  induction es generalizing prev bits cnt with
  | nil => exact .inr ⟨bits, cnt, rfl⟩
  | cons e es ih =>
    obtain ⟨kind, ts⟩ := e
    by_cases hcnt : cnt = c.frameBits
    · subst hcnt; exact .inr ⟨bits, c.frameBits, decodeBits_full c _ _ _⟩
    · cases kind with
      | rising => rw [decodeBits_rising]; exact ih _ _ _
      | falling =>
        cases hb : classifyPeriod c (tsSub c ts prev) with
        | none => exact .inl (decodeBits_bad c _ _ _ _ _ hcnt hb)
        | some b => rw [decodeBits_bit c _ _ _ _ _ b hcnt hb]; exact ih _ _ _

/-- The kinds of the first three entries are right and the start pulse is in its window (R126, R127). -/
def GoodStart (e0 e1 e2 : EdgeEvent) : Prop :=
  (e0.kind = .falling ∧ e1.kind = .rising ∧ e2.kind = .falling) ∧
    inWin c (tsSub c e1.ts e0.ts) c.tStartPulse = true

/-- Everything FrameDecoder can answer, and when (R126 to R128). -/
theorem frameDecode_cases (es : List EdgeEvent) :
    (es.length < 3 ∧ frameDecode c es = .insufficientEvents) ∨
    ∃ e0 e1 e2 rest, es = e0 :: e1 :: e2 :: rest ∧
      ((¬ GoodStart c e0 e1 e2 ∧ frameDecode c es = .invalidPreamble) ∨
       (GoodStart c e0 e1 e2 ∧ inWin c (tsSub c e2.ts e1.ts) c.tSpaceRepeat = true ∧ frameDecode c es = .repeatFrame) ∨
       (GoodStart c e0 e1 e2 ∧ inWin c (tsSub c e2.ts e1.ts) c.tSpaceRepeat = false ∧
          inWin c (tsSub c e2.ts e1.ts) c.tSpaceNew = false ∧ frameDecode c es = .invalidPreamble) ∨
       (GoodStart c e0 e1 e2 ∧ inWin c (tsSub c e2.ts e1.ts) c.tSpaceRepeat = false ∧
          inWin c (tsSub c e2.ts e1.ts) c.tSpaceNew = true ∧ frameDecode c es = decodeBits c rest e2.ts 0 0)) := by
  match es with
  | [] => exact .inl ⟨by simp, rfl⟩
  | [_] => exact .inl ⟨by simp, rfl⟩
  | [_, _] => exact .inl ⟨by simp, rfl⟩
  | e0 :: e1 :: e2 :: rest =>
    refine .inr ⟨e0, e1, e2, rest, rfl, ?_⟩
    simp only [frameDecode, GoodStart]
    split
    · next h => exact .inl ⟨fun hg => h hg.1, rfl⟩
    · next h =>
      rw [Classical.not_not] at h
      split
      · next hp => exact .inl ⟨fun hg => hp hg.2, rfl⟩
      · next hp =>
        rw [Classical.not_not] at hp
        split
        · next hr => exact .inr (.inl ⟨⟨h, hp⟩, hr, rfl⟩)
        · next hr =>
          rw [Bool.not_eq_true] at hr
          split
          · next hn => exact .inr (.inr (.inl ⟨⟨h, hp⟩, hr, by simpa using hn, rfl⟩))
          · next hn => exact .inr (.inr (.inr ⟨⟨h, hp⟩, hr, by simpa using hn, rfl⟩))

end Sys2Proof.Machine
end

