-- ==== Sys2Proof/Laws/State.lean ====
section
/-! SUPPORT. What each update of the state leaves in each field. -/

namespace Sys2Proof.Machine.State

variable (s : State)

@[simp] theorem logAppend_log (kind : EdgeKind) (ts : Timestamp) : (s.logAppend kind ts).log = s.log ++ [⟨kind, ts⟩] := rfl
@[simp] theorem logAppend_lastTs (kind : EdgeKind) (ts : Timestamp) : (s.logAppend kind ts).lastTs = ts := rfl
@[simp] theorem logAppend_cache (kind : EdgeKind) (ts : Timestamp) : (s.logAppend kind ts).cache = s.cache := rfl
@[simp] theorem logAppend_sink (kind : EdgeKind) (ts : Timestamp) : (s.logAppend kind ts).sink = s.sink := rfl
@[simp] theorem logAppend_event (kind : EdgeKind) (ts : Timestamp) : (s.logAppend kind ts).event = s.event := rfl
@[simp] theorem logAppend_inputs (kind : EdgeKind) (ts : Timestamp) : (s.logAppend kind ts).inputs = s.inputs := rfl
@[simp] theorem logAppend_draws (kind : EdgeKind) (ts : Timestamp) : (s.logAppend kind ts).draws = s.draws := rfl

@[simp] theorem logClear_log : (s.logClear).log = [] := rfl
@[simp] theorem logClear_lastTs : (s.logClear).lastTs = s.lastTs := rfl
@[simp] theorem logClear_cache : (s.logClear).cache = s.cache := rfl
@[simp] theorem logClear_sink : (s.logClear).sink = s.sink := rfl
@[simp] theorem logClear_event : (s.logClear).event = s.event := rfl
@[simp] theorem logClear_inputs : (s.logClear).inputs = s.inputs := rfl
@[simp] theorem logClear_draws : (s.logClear).draws = s.draws := rfl

@[simp] theorem emit_log (d : Diag) : (s.emit d).log = s.log := rfl
@[simp] theorem emit_lastTs (d : Diag) : (s.emit d).lastTs = s.lastTs := rfl
@[simp] theorem emit_cache (d : Diag) : (s.emit d).cache = s.cache := rfl
@[simp] theorem emit_sink (d : Diag) : (s.emit d).sink = s.sink := rfl
@[simp] theorem emit_event (d : Diag) : (s.emit d).event = some d := rfl
@[simp] theorem emit_inputs (d : Diag) : (s.emit d).inputs = s.inputs := rfl
@[simp] theorem emit_draws (d : Diag) : (s.emit d).draws = s.draws := rfl

@[simp] theorem noEvent_log : (s.noEvent).log = s.log := rfl
@[simp] theorem noEvent_lastTs : (s.noEvent).lastTs = s.lastTs := rfl
@[simp] theorem noEvent_cache : (s.noEvent).cache = s.cache := rfl
@[simp] theorem noEvent_sink : (s.noEvent).sink = s.sink := rfl
@[simp] theorem noEvent_event : (s.noEvent).event = none := rfl
@[simp] theorem noEvent_inputs : (s.noEvent).inputs = s.inputs := rfl
@[simp] theorem noEvent_draws : (s.noEvent).draws = s.draws := rfl

@[simp] theorem sinkWrite_log (cmd : Byte) (rep : Bool) : (s.sinkWrite cmd rep).log = s.log := rfl
@[simp] theorem sinkWrite_lastTs (cmd : Byte) (rep : Bool) : (s.sinkWrite cmd rep).lastTs = s.lastTs := rfl
@[simp] theorem sinkWrite_cache (cmd : Byte) (rep : Bool) : (s.sinkWrite cmd rep).cache = s.cache := rfl
@[simp] theorem sinkWrite_sink (cmd : Byte) (rep : Bool) : (s.sinkWrite cmd rep).sink = ⟨cmd, false, rep⟩ := rfl
@[simp] theorem sinkWrite_event (cmd : Byte) (rep : Bool) : (s.sinkWrite cmd rep).event = s.event := rfl
@[simp] theorem sinkWrite_inputs (cmd : Byte) (rep : Bool) : (s.sinkWrite cmd rep).inputs = s.inputs := rfl
@[simp] theorem sinkWrite_draws (cmd : Byte) (rep : Bool) : (s.sinkWrite cmd rep).draws = s.draws := rfl

@[simp] theorem cacheWrite_log (addr cmd : Byte) : (s.cacheWrite addr cmd).log = s.log := rfl
@[simp] theorem cacheWrite_lastTs (addr cmd : Byte) : (s.cacheWrite addr cmd).lastTs = s.lastTs := rfl
@[simp] theorem cacheWrite_cache (addr cmd : Byte) : (s.cacheWrite addr cmd).cache = ⟨true, addr, cmd⟩ := rfl
@[simp] theorem cacheWrite_sink (addr cmd : Byte) : (s.cacheWrite addr cmd).sink = s.sink := rfl
@[simp] theorem cacheWrite_event (addr cmd : Byte) : (s.cacheWrite addr cmd).event = s.event := rfl
@[simp] theorem cacheWrite_inputs (addr cmd : Byte) : (s.cacheWrite addr cmd).inputs = s.inputs := rfl
@[simp] theorem cacheWrite_draws (addr cmd : Byte) : (s.cacheWrite addr cmd).draws = s.draws := rfl

@[simp] theorem resetBlock_log : (s.resetBlock).log = [] := rfl
@[simp] theorem resetBlock_lastTs : (s.resetBlock).lastTs = 0 := rfl
@[simp] theorem resetBlock_cache : (s.resetBlock).cache = ⟨false, 0, 0⟩ := rfl
@[simp] theorem resetBlock_sink : (s.resetBlock).sink = ⟨0, true, false⟩ := rfl
@[simp] theorem resetBlock_event : (s.resetBlock).event = none := rfl
@[simp] theorem resetBlock_inputs : (s.resetBlock).inputs = s.inputs := rfl
@[simp] theorem resetBlock_draws : (s.resetBlock).draws = s.draws := rfl

@[simp] theorem present_log (w : InWord) : (s.present w).log = s.log := rfl
@[simp] theorem present_lastTs (w : InWord) : (s.present w).lastTs = s.lastTs := rfl
@[simp] theorem present_cache (w : InWord) : (s.present w).cache = s.cache := rfl
@[simp] theorem present_sink (w : InWord) : (s.present w).sink = s.sink := rfl
@[simp] theorem present_event (w : InWord) : (s.present w).event = s.event := rfl
@[simp] theorem present_inputs (w : InWord) : (s.present w).inputs = ⟨false, [w]⟩ :: s.inputs := rfl
@[simp] theorem present_draws (w : InWord) : (s.present w).draws = s.draws := rfl

@[simp] theorem reset_log : reset.log = [] := rfl
@[simp] theorem reset_lastTs : reset.lastTs = 0 := rfl
@[simp] theorem reset_cache : reset.cache = ⟨false, 0, 0⟩ := rfl
@[simp] theorem reset_sink : reset.sink = ⟨0, true, false⟩ := rfl
@[simp] theorem reset_event : reset.event = none := rfl
@[simp] theorem reset_inputs : reset.inputs = [] := rfl
@[simp] theorem reset_draws : reset.draws = 0 := rfl

end Sys2Proof.Machine.State
end

