-- ==== Sys2Proof/Laws/Ops.lean ====
section
/-! SUPPORT. What each shared operation can do, once. -/

namespace Sys2Proof.Machine

namespace State

variable (s : State)

/-- Reading the entries from `i` on gives the log from there, while no empty cell is reached. -/
theorem readEntries_eq (n i : Nat) (h : i + n ≤ s.log.length) :
    s.readEntries i n = .ok ((s.log.drop i).take n) := by
  induction n generalizing i with
  | zero => simp [readEntries]
  | succ n ih =>
    have hi : i < s.log.length := by omega
    have hd : s.log.drop i = s.log[i] :: s.log.drop (i + 1) := List.drop_eq_getElem_cons hi
    rw [readEntries, ih (i + 1) (by omega), readEntry, List.getElem?_eq_getElem hi, hd, List.take_succ_cons]

/-- The snapshot is the log: no empty cell is read (10_state.md R22). -/
@[simp] theorem snapshot_eq : s.snapshot = .ok s.log := by
  simp [snapshot, logLen, readEntries_eq s s.log.length 0 (by omega)]

/-- An append below the capacity keeps the bound on the log (R21). -/
theorem LogBounded_logAppend (capacity : Nat) (h : s.logLen < capacity) (kind : EdgeKind) (ts : Timestamp) :
    (s.logAppend kind ts).log.length ≤ capacity := by
  simpa [logLen] using h

/-- After an append the last entry is the one appended (R25). -/
@[simp] theorem logAppend_getLast? (kind : EdgeKind) (ts : Timestamp) :
    (s.logAppend kind ts).log.getLast? = some ⟨kind, ts⟩ := by
  simp

/-- Reading a cell at or above `log.len` faults (R22). -/
theorem readEntry_empty (i : Nat) (h : s.logLen ≤ i) : s.readEntry i = .error (.emptyLogCell i) := by
  rw [readEntry, List.getElem?_eq_none h]

end State

/-- Choosing takes one of the waiting words and leaves the others in their order. -/
theorem chooseWord_spec (c : Config) (draw : Nat) (w : InWord) (waiting : List InWord) :
    ∃ before chosen after, w :: waiting = before ++ chosen :: after ∧
      chooseWord c draw w waiting = (chosen, before ++ after) := by
  set all := w :: waiting with hall
  have hk : c.arrivalOrder draw % all.length < all.length := Nat.mod_lt _ (by simp [hall])
  refine ⟨all.take (c.arrivalOrder draw % all.length), all[c.arrivalOrder draw % all.length],
    all.drop (c.arrivalOrder draw % all.length + 1), ?_, ?_⟩
  · rw [← List.drop_eq_getElem_cons hk, List.take_append_drop]
  · have hget : all.getD (c.arrivalOrder draw % all.length) w = all[c.arrivalOrder draw % all.length] := by
      simp [List.getD, List.getElem?_eq_getElem hk]
    simp only [chooseWord, ← hall, hget, List.eraseIdx_eq_take_drop_succ]

/-- Everything taking an input can do: nothing is presented, the reset input is taken and the words presented with it
are dropped, or one of the words of the next instant is taken and the others still wait. -/
theorem takeInput_cases {c : Config} {s s' : State} {x : Input} (h : s.takeInput c = (x, s')) :
    (x = .nothing ∧ s.inputs = [] ∧ s' = s) ∨
    (∃ later, x = .nothing ∧ s.inputs = ⟨false, []⟩ :: later ∧ s' = { s with inputs := later }) ∨
    (∃ words later, x = .reset ∧ s.inputs = ⟨true, words⟩ :: later ∧ s' = { s with inputs := later }) ∨
    (∃ w later, x = .word w ∧ s.inputs = ⟨false, [w]⟩ :: later ∧ s' = { s with inputs := later }) ∨
    (∃ before w after later, x = .word w ∧ 2 ≤ (before ++ w :: after).length ∧
      s.inputs = ⟨false, before ++ w :: after⟩ :: later ∧
      s' = { s with inputs := ⟨false, before ++ after⟩ :: later, draws := s.draws + 1 }) := by
  unfold State.takeInput at h
  split at h
  · next hin => cases h; exact .inl ⟨rfl, hin, rfl⟩
  · next p later hin =>
    obtain ⟨rst, words⟩ := p
    cases rst with
    | true => cases h; exact .inr (.inr (.inl ⟨words, later, rfl, hin, rfl⟩))
    | false =>
      match words, hin, h with
      | [], hin, h => cases h; exact .inr (.inl ⟨later, rfl, hin, rfl⟩)
      | [w], hin, h => cases h; exact .inr (.inr (.inr (.inl ⟨w, later, rfl, hin, rfl⟩)))
      | w :: w' :: ws, hin, h =>
        obtain ⟨before, chosen, after, hall, hch⟩ := chooseWord_spec c s.draws w (w' :: ws)
        refine .inr (.inr (.inr (.inr ⟨before, chosen, after, later, ?_⟩)))
        simp only [Bool.false_eq_true, if_false, hch, Prod.mk.injEq] at h
        refine ⟨h.1.symm, ?_, ?_, h.2.symm⟩
        · rw [← hall]; simp
        · rw [← hall]; exact hin

/-- With one word presented, that word is taken. -/
@[simp] theorem takeInput_present (c : Config) (s : State) (w : InWord) :
    (s.present w).takeInput c = (.word w, s) := rfl

end Sys2Proof.Machine
end

