-- ==== Sys2Proof/Laws/Exec.lean ====
section
/-! SUPPORT. What each transaction can do, once. -/

namespace Sys2Proof.Machine

/-- Everything `ValidateFrame` can do: accept, or emit and write nothing (42_validate_repeat.md R164). -/
theorem validateFrame_cases (c : Config) (bits : Payload) (n : Nat) (s : State) :
    (addressValid bits = true ∧ commandValid bits = true ∧ (c.frameBits ≤ n ∨ c.shortFramePolicy = .reference) ∧
      validateFrame c bits n s = acceptFrame bits n s) ∨
    (n < c.frameBits ∧ (c.shortFramePolicy = .reject ∨ (addressValid bits && commandValid bits) = false) ∧
      validateFrame c bits n s = s.emit (frameDiag .shortFrame bits n)) ∨
    (c.frameBits ≤ n ∧ (addressValid bits && commandValid bits) = false ∧
      validateFrame c bits n s = s.emit (frameDiag .checksumMismatch bits n)) := by
  unfold validateFrame
  split
  · next h => exact .inr (.inl ⟨h.1, by simpa using h.2, rfl⟩)
  · next h =>
    split
    · next hv =>
      rw [Bool.and_eq_true] at hv
      refine .inl ⟨hv.1, hv.2, ?_, rfl⟩
      cases hp : c.shortFramePolicy with
      | reference => exact .inr rfl
      | reject => exact .inl (by simpa [hp] using h)
    · next hv =>
      rw [Bool.not_eq_true] at hv
      exact .inr (.inr ⟨by simpa [hv] using h, hv, rfl⟩)

/-- Everything a decode cycle can conclude: it accepts a new frame, replays the cached command, or emits and writes
neither RepeatCache nor CommandSink (41_idle_decode.md R122, 42_validate_repeat.md R173). -/
theorem conclude_cases (c : Config) (r : DecodeResult) (s : State) :
    (∃ bits n, r = .newFrame bits n ∧ addressValid bits = true ∧ commandValid bits = true ∧
      (c.frameBits ≤ n ∨ c.shortFramePolicy = .reference) ∧ conclude c r s = acceptFrame bits n s) ∨
    (r = .repeatFrame ∧ s.cache.valid = true ∧
      conclude c r s = (s.sinkWrite s.cache.cmd true).emit
        { status := .repeated, isRepeat := true, address := s.cache.addr, command := s.cache.cmd }) ∨
    (∃ d, (d.status.isError = true ∨ (d.status = .repeatEmpty ∧ s.cache.valid = false)) ∧
      d.status ≠ .bufferOverflow ∧ conclude c r s = s.emit d) := by
  cases r with
  | insufficientEvents => exact .inr (.inr ⟨_, .inl rfl, by simp, rfl⟩)
  | invalidPreamble => exact .inr (.inr ⟨_, .inl rfl, by simp, rfl⟩)
  | invalidBitTiming => exact .inr (.inr ⟨_, .inl rfl, by simp, rfl⟩)
  | repeatFrame =>
    cases hv : s.cache.valid with
    | true => exact .inr (.inl ⟨rfl, rfl, by simp [conclude, repeatFrame, hv]⟩)
    | false =>
      exact .inr (.inr ⟨{ status := .repeatEmpty, isRepeat := true }, .inr ⟨rfl, rfl⟩, by simp,
        by simp [conclude, repeatFrame, hv]⟩)
  | newFrame bits n =>
    rcases validateFrame_cases c bits n s with ⟨ha, hc, hn, h⟩ | ⟨-, -, h⟩ | ⟨-, -, h⟩
    · exact .inl ⟨bits, n, rfl, ha, hc, hn, h⟩
    · exact .inr (.inr ⟨_, .inl rfl, by simp [frameDiag], h⟩)
    · exact .inr (.inr ⟨_, .inl rfl, by simp [frameDiag], h⟩)

/-- What a decode cycle's conclusion leaves alone, and that it always emits (41_idle_decode.md R122). -/
theorem conclude_frame (c : Config) (r : DecodeResult) (s : State) :
    (conclude c r s).log = s.log ∧ (conclude c r s).lastTs = s.lastTs ∧ (conclude c r s).inputs = s.inputs ∧
      (conclude c r s).draws = s.draws ∧ ∃ d, (conclude c r s).event = some d := by
  rcases conclude_cases c r s with ⟨bits, n, -, -, -, -, h⟩ | ⟨-, -, h⟩ | ⟨d, -, -, h⟩ <;>
    rw [h] <;> exact ⟨rfl, rfl, rfl, rfl, _, rfl⟩

/-- EDGE appends while there is room and otherwise discards the log (40_capture.md R101). -/
theorem execEdge_eq (kind : EdgeKind) (ts : Timestamp) (s : State) :
    execEdge kind ts s = .next (if s.log.length < 100 then (s.logAppend kind ts).noEvent
      else s.logClear.emit { status := .bufferOverflow }) := by
  by_cases h : s.log.length < 100 <;> simp [execEdge, edge, State.logLen, h]

/-- The idle comparison (41_idle_decode.md R121). -/
theorem isIdleAt_hw (s : State) (now : Timestamp) :
    s.isIdleAt Config.hw now = true ↔ 10000 < (now - s.lastTs).toNat := by
  rw [State.isIdleAt, decide_eq_true_eq, Config.hw_idleThreshold, tsSub_hw]

/-- TICK runs a decode cycle on a log that is idle and not empty, and otherwise only emits nothing (R121, R122). -/
theorem execTick_eq (now : Timestamp) (s : State) :
    execTick now s = .next (if s.log ≠ [] ∧ 10000 < (now - s.lastTs).toNat
      then conclude Config.hw (frameDecode Config.hw s.log) s.logClear else s.noEvent) := by
  simp only [execTick, tick, State.logLen, List.length_eq_zero_iff, isIdleAt_hw, decodeCycle, State.snapshot_eq]
  by_cases hlog : s.log = []
  · rw [if_pos hlog, if_neg (fun h => h.1 hlog)]
  · rw [if_neg hlog]
    by_cases hidle : 10000 < (now - s.lastTs).toNat
    · rw [if_neg (not_not.mpr hidle), if_pos ⟨hlog, hidle⟩]
    · rw [if_pos hidle, if_neg (fun h => hidle h.2)]

/-- ACK (43_host.md R190). -/
theorem execAck_eq (s : State) :
    execAck s = .next { s with sink := { s.sink with consumed := true }, event := none } := rfl

/-- CLEAR (43_host.md R191). -/
theorem execClear_eq (s : State) :
    execClear s = .next { s with sink := ⟨0, true, false⟩, event := none } := rfl

/-- A decode cycle's conclusion is the same whatever is still to be presented and however many choices were drawn. -/
theorem conclude_inputs (c : Config) (r : DecodeResult) (s : State) (a : List Presentation) (b : Nat) :
    conclude c r { s with inputs := a, draws := b } = { conclude c r s with inputs := a, draws := b } := by
  cases r with
  | newFrame bits n => simp only [conclude, validateFrame]; split <;> [rfl; (split <;> rfl)]
  | repeatFrame => simp only [conclude, repeatFrame]; split <;> rfl
  | _ => rfl

/-- Every transaction completes, and what is still to be presented and the count of draws neither change nor matter to
it. -/
theorem exec_inputs (i : Instr) (s : State) (a : List Presentation) (b : Nat) :
    ∃ t, exec i s = .next t ∧ t.inputs = s.inputs ∧ t.draws = s.draws ∧
      exec i { s with inputs := a, draws := b } = .next { t with inputs := a, draws := b } := by
  cases i with
  | edge k ts => simp only [exec, execEdge_eq]; split <;> exact ⟨_, rfl, rfl, rfl, rfl⟩
  | tick now =>
    simp only [exec, execTick_eq]
    split
    · obtain ⟨-, -, hi, hd, -⟩ := conclude_frame Config.hw (frameDecode Config.hw s.log) s.logClear
      exact ⟨_, rfl, hi, hd, congrArg _ (conclude_inputs _ _ s.logClear a b)⟩
    · exact ⟨_, rfl, rfl, rfl, rfl⟩
  | ack => exact ⟨_, rfl, rfl, rfl, rfl⟩
  | clear => exact ⟨_, rfl, rfl, rfl, rfl⟩

/-- Everything a transaction can do to the state: one line per case, each with the transaction it belongs to. -/
theorem exec_cases {i : Instr} {s : State} {o : StepOutcome} (h : exec i s = o) :
    (∃ kind ts, i = .edge kind ts ∧ s.log.length < 100 ∧ o = .next (s.logAppend kind ts).noEvent) ∨
    (∃ kind ts, i = .edge kind ts ∧ 100 ≤ s.log.length ∧ o = .next (s.logClear.emit { status := .bufferOverflow })) ∨
    (∃ now, i = .tick now ∧ (s.log = [] ∨ (now - s.lastTs).toNat ≤ 10000) ∧ o = .next s.noEvent) ∨
    (∃ now, i = .tick now ∧ s.log ≠ [] ∧ 10000 < (now - s.lastTs).toNat ∧
      o = .next (conclude Config.hw (frameDecode Config.hw s.log) s.logClear)) ∨
    (i = .ack ∧ o = .next { s with sink := { s.sink with consumed := true }, event := none }) ∨
    (i = .clear ∧ o = .next { s with sink := ⟨0, true, false⟩, event := none }) := by
  subst h
  cases i with
  | edge kind ts =>
    simp only [exec, execEdge_eq]
    split
    · next hl => exact .inl ⟨kind, ts, rfl, hl, rfl⟩
    · next hl => exact .inr (.inl ⟨kind, ts, rfl, by omega, rfl⟩)
  | tick now =>
    simp only [exec, execTick_eq]
    split
    · next hi => exact .inr (.inr (.inr (.inl ⟨now, rfl, hi.1, hi.2, rfl⟩)))
    · next hi =>
      refine .inr (.inr (.inl ⟨now, rfl, ?_, rfl⟩))
      by_cases hlog : s.log = []
      · exact .inl hlog
      · exact .inr (by simpa [hlog] using hi)
  | ack => exact .inr (.inr (.inr (.inr (.inl ⟨rfl, execAck_eq s⟩))))
  | clear => exact .inr (.inr (.inr (.inr (.inr ⟨rfl, execClear_eq s⟩))))

end Sys2Proof.Machine
end

