-- ==== Sys2Proof/Laws/PerInstr.lean ====
section
/-! SUPPORT. Facts about every transaction as syntax, one lemma per constructor. -/

namespace Sys2Proof.Laws

namespace EncodedFields

/-- The fields of a transaction's word are those of its row: the opcode of 30_encoding.md R72, `rsv` 0, and `kind` 0
unless it is an EDGE of a rising edge (R71, R73). -/
def Statement (i : Instr) : Prop :=
  (encode i).rsv = 0#1 ∧
  match i with
  | .edge kind ts => (encode i).op = 0b00#2 ∧ (encode i).kindBit = kind.toBit ∧ (encode i).ts = ts
  | .tick now => (encode i).op = 0b01#2 ∧ (encode i).kindBit = 0#1 ∧ (encode i).ts = now
  | .ack => (encode i).op = 0b10#2 ∧ (encode i).below = 0#66
  | .clear => (encode i).op = 0b11#2 ∧ (encode i).below = 0#66

theorem edge (kind : EdgeKind) (ts : Timestamp) : Statement (.edge kind ts) := by simp [Statement, encode]

theorem tick (now : Timestamp) : Statement (.tick now) := by simp [Statement, encode]

theorem ack : Statement .ack := by simp [Statement, encode, InWord.below_eq_zero_iff]

theorem clear : Statement .clear := by simp [Statement, encode, InWord.below_eq_zero_iff]

end EncodedFields

namespace WellFormed

/-- Every transaction that can be written is well formed (30_encoding.md R75). -/
def Statement (i : Instr) : Prop := i.wellFormed = true

theorem edge (kind : EdgeKind) (ts : Timestamp) : Statement (.edge kind ts) := rfl

theorem tick (now : Timestamp) : Statement (.tick now) := rfl

theorem ack : Statement .ack := rfl

theorem clear : Statement .clear := rfl

end WellFormed

end Sys2Proof.Laws
end

