-- ==== Sys2Proof/Laws/Step.lean ====
section
/-! SUPPORT. What a step can do, once, and that a safety fact kept by every step holds along every run. -/

namespace Sys2Proof.Machine

/-- Without an input nothing changes but the event (log entry 4). -/
@[simp] theorem perform_nothing (s : State) : perform (.nothing, s) = .next s.noEvent := rfl

/-- `rst` resets the block (70_reset_and_hazards.md R230). -/
@[simp] theorem perform_reset (s : State) : perform (.reset, s) = .next s.resetBlock := rfl

/-- A legal word is performed as its transaction (30_encoding.md R85). -/
theorem perform_legal {w : InWord} {i : Instr} (h : decode w = .ok i) (s : State) : perform (.word w, s) = exec i s := by
  simp [perform, h]

/-- An illegal word is refused by name (30_encoding.md R76). -/
theorem perform_illegal {w : InWord} {why : IllegalWord} (h : decode w = .error why) (s : State) :
    perform (.word w, s) = .refused (.illegalWord why) := by
  simp [perform, h]

/-- Steps under this hardware's own `ARRIVAL_ORDER` are its steps. -/
theorem stepsInOrder_hw (n : Nat) (s : State) :
    stepsInOrder Config.hw.arrivalOrder n s = Host.Core.run ⟨State, Fault, Refusal, step, State.reset⟩ n s := by
  induction n generalizing s with
  | zero => rfl
  | succ n ih =>
    have hstep : perform (s.takeInput { Config.hw with arrivalOrder := Config.hw.arrivalOrder }) = step s := rfl
    simp only [stepsInOrder, Host.Core.run, hstep, ih]
    cases step s <;> rfl

/-- Everything a step can do: nothing is presented; reset; one presented word is taken and performed; or that word is
refused. Taking a word changes only what is still to be presented and the number of choices drawn. -/
theorem step_cases {s : State} {o : StepOutcome} (h : step s = o) :
    (s.inputs = [] ∧ o = .next s.noEvent) ∨
    (∃ later, s.inputs = ⟨false, []⟩ :: later ∧ o = .next { s with inputs := later }.noEvent) ∨
    (∃ words later, s.inputs = ⟨true, words⟩ :: later ∧ o = .next { s with inputs := later }.resetBlock) ∨
    (∃ w later draws, s.takeInput Config.hw = (.word w, { s with inputs := later, draws := draws }) ∧
      ((∃ i, decode w = .ok i ∧ o = exec i { s with inputs := later, draws := draws }) ∨
       (∃ why, decode w = .error why ∧ o = .refused (.illegalWord why)))) := by
  subst h
  have word : ∀ w later draws, s.takeInput Config.hw = (.word w, { s with inputs := later, draws := draws }) →
      (∃ i, decode w = .ok i ∧ step s = exec i { s with inputs := later, draws := draws }) ∨
      (∃ why, decode w = .error why ∧ step s = .refused (.illegalWord why)) := by
    intro w later draws heq
    unfold step
    rw [heq]
    cases hd : decode w with
    | ok i => exact .inl ⟨i, rfl, perform_legal hd _⟩
    | error why => exact .inr ⟨why, rfl, perform_illegal hd _⟩
  rcases hx : s.takeInput Config.hw with ⟨x, s'⟩
  rcases takeInput_cases hx with ⟨rfl, hin, rfl⟩ | ⟨later, rfl, hin, rfl⟩ | ⟨words, later, rfl, hin, rfl⟩ |
    ⟨w, later, rfl, -, rfl⟩ | ⟨before, w, after, later, rfl, -, -, rfl⟩
  · exact .inl ⟨hin, by unfold step; rw [hx]; rfl⟩
  · exact .inr (.inl ⟨later, hin, by unfold step; rw [hx]; rfl⟩)
  · exact .inr (.inr (.inl ⟨words, later, hin, by unfold step; rw [hx]; rfl⟩))
  · exact .inr (.inr (.inr ⟨w, later, s.draws, rfl, word w later s.draws hx⟩))
  · exact .inr (.inr (.inr ⟨w, _, _, rfl, word w _ _ hx⟩))

/-- A fact that every step keeps holds in every state a run of any length reaches. -/
theorem run_keeps {P : State → Prop} (hstep : ∀ s t, P s → step s = .next t → P t) (n : Nat) (s t : State)
    (hs : P s) (hrun : Host.Core.run ⟨State, Fault, Refusal, step, State.reset⟩ n s = .next t) : P t := by
  induction n generalizing s with
  | zero => cases hrun; exact hs
  | succ n ih =>
    simp only [Host.Core.run] at hrun
    split at hrun
    · next s' hs' => exact ih s' (hstep s s' hs hs') hrun
    · cases hrun
    · cases hrun

end Sys2Proof.Machine
end

