-- ==== Sys2Proof/Tests/Slice0.lean ====
section
/-! SUPPORT. Tests of the model against the spec's own vectors (95_test_vectors.md) and rules, and a witness for the
hypotheses of every statement that has some. -/

namespace Sys2Proof.Tests

open Sys2Proof Sys2Proof.Machine

/- Many small kernel evaluations: one at a time, so that the file needs few threads. -/
set_option Elab.async false

/-! ### Helpers -/

/-- The state an outcome goes on with. -/
def nextOf : StepOutcome → Option State
  | .next s => some s
  | .fault _ => none
  | .refused _ => none

/-- The reason an outcome is refused for. -/
def refusalOf : StepOutcome → Option Refusal
  | .next _ => none
  | .fault _ => none
  | .refused r => some r

/-- What a decoded word is, without the reason of a refusal. -/
def readWord (w : InWord) : Option Instr := (decode w).toOption

/-- The reset state with a log and the `last_ts` that goes with it. -/
def withLog (es : List EdgeEvent) : State :=
  { State.reset with log := es, lastTs := (es.getLast?.map (·.ts)).getD 0 }

/-- The log of S1: `NECFRAME 0, 0x00, 0xFF, 0x10, 0xEF`. -/
def frameS1 : List EdgeEvent := necFrameEdges Config.hw 0 0x00 0xFF 0x10 0xEF

/-- The log of F32: a 24-bit frame 0xFF, 0x10, 0xEF. -/
def frameF32 : List EdgeEvent := frameEdges Config.hw 0 (byteBits 0xFF ++ byteBits 0x10 ++ byteBits 0xEF)

/-- A full log. -/
def fullLog : List EdgeEvent := List.replicate 100 ⟨.falling, 49500⟩

/-- `pre(p, s)` of 95_test_vectors.md 2.4. -/
def pre (p s : Timestamp) : List EdgeEvent := preambleEdges 0 p s

/-- `pre(9300, 4500) + bits(ds)` of 95_test_vectors.md 2.4. -/
def preBits (ds : List Timestamp) : List EdgeEvent := pre 9300 4500 ++ periodEdges Config.hw 13800 ds

/-- The diagnostic port after a transaction. -/
def diagAfter (i : Instr) (s : State) : Option (BitVec 64) := (nextOf (exec i s)).map fun t => t.ports.diag

/-! ### WellFormed and Config: an ill-formed term for each check -/

theorem smoke_overlapping_bit_windows_refused :
    { Config.hw with slack := 564 }.windowsDisjoint = false ∧ { Config.hw with slack := 563 }.windowsDisjoint = true := by
  decide

theorem smoke_overlapping_space_windows_refused :
    { Config.hw with tSpaceNew := 2600 }.windowsDisjoint = false := by decide

theorem smoke_log_beyond_seven_bits_refused :
    { Config.hw with logCapacity := 128 }.logLenFits = false := by decide

theorem smoke_timestamp_beyond_operand_refused :
    { Config.hw with tsWidth := 65 }.timestampFits = false := by decide

theorem smoke_frame_beyond_payload_refused :
    { Config.hw with frameBits := 33 }.frameFits = false := by decide

theorem smoke_hw_well_formed : Config.hw.wellFormed = true := by decide

theorem smoke_transactions_well_formed :
    [Instr.edge .rising 0, .tick 0, .ack, .clear].all Instr.wellFormed = true := by decide

/-! ### Decode: words written out from 30_encoding.md R71 (X1 to X11) -/

theorem test_decode_edge :
    readWord 0b00000000000000000000000000000000000000000000000000000000000000000101#68 = some (.edge .falling 5) ∧
    readWord 0b00100000000000000000000000000000000000000000000000000010010001010100#68 = some (.edge .rising 9300) ∧
    readWord 0b00010000000000000000000000000000000000000000000000000000000000000101#68 = none := by
  decide

theorem test_decode_tick :
    readWord 0b01000000000000000000000000000000000000000000000000010011001000011011#68 = some (.tick 78363) := by decide

theorem test_decode_ack :
    readWord 0b10000000000000000000000000000000000000000000000000000000000000000000#68 = some .ack := by decide

theorem test_decode_clear :
    readWord 0b11000000000000000000000000000000000000000000000000000000000000000000#68 = some .clear := by decide

theorem test_decode_largest_timestamp :
    readWord 0x0FFFFFFFFFFFFFFFF#68 = some (.edge .falling 18446744073709551615) := by decide

theorem test_illegal_words_refused :
    [0x10000000000000005#68, 0x60000000000000005#68, 0x50000000000000000#68, 0x80000000000000001#68,
      0xE0000000000000000#68].map readWord = [none, none, none, none, none] := by decide

theorem test_decode_table_word :
    decodeTableWord 72 0x20000000000002454 = some (.edge .rising 9300) ∧
    decodeTableWord 72 0x100000000000000000 = none := by decide

theorem test_encode_rising_edge : encode (.edge .rising 9300) = 0x20000000000002454#68 := by decide

/-! ### The transactions (E, T, H, Z vectors) -/

/-- E1, through a step from reset. -/
theorem test_edge_first_entry :
    (nextOf (step (State.reset.withFetchWord 72 0x00000000000000000))).map (fun t => (t.log, t.lastTs, t.event)) =
      some ([⟨.falling, 0⟩], 0, none) := by decide

/-- E7: an overflow writes neither cache nor sink. -/
theorem test_edge_overflow :
    (nextOf (exec (.edge .rising 100)
      { withLog fullLog with cache := ⟨true, 0x12, 0x34⟩, sink := ⟨0x34, false, false⟩ })).map
        (fun t => (t.log, t.lastTs, t.cache, t.sink, t.ports.diag)) =
      some ([], 49500, ⟨true, 0x12, 0x34⟩, ⟨0x34, false, false⟩, 0x0000000000000009#64) := by decide +kernel

/-- T2, T3 and T4: the strict threshold and the wrap. -/
theorem test_tick_threshold :
    diagAfter (.tick 10000) (withLog [⟨.falling, 0⟩]) = some 0 ∧
    diagAfter (.tick 10001) (withLog [⟨.falling, 0⟩]) = some 0x0000000000000004#64 ∧
    diagAfter (.tick 5) (withLog [⟨.falling, 20000⟩]) = some 0x0000000000000004#64 := by decide

/-- S1: an accepted frame. -/
theorem test_tick_accepts_s1 :
    (nextOf (exec (.tick 78363) (withLog frameS1))).map (fun t => (t.log, t.lastTs, t.cache, t.sink, t.ports.diag)) =
      some ([], 68362, ⟨true, 0x00, 0x10⟩, ⟨0x10, false, false⟩, 0x00FF10EF20100061#64) := by decide +kernel

/-- R8 and R12 with `TS_WIDTH` = 16: 10 − 65530 is 16 modulo 2^16, and an EDGE keeps the low 16 bits of 65546. -/
theorem test_timestamp_width_varies :
    tsSub { Config.hw with tsWidth := 16 } 10 65530 = 16 ∧
    (nextOf (edge { Config.hw with tsWidth := 16 } .rising 65546 State.reset)).map (·.lastTs) = some 10 := by decide

/-- H1. -/
theorem test_ack : (nextOf (exec .ack { State.reset with sink := ⟨0x10, false, false⟩ })).map (·.sink) =
    some ⟨0x10, true, false⟩ := by decide

/-- H3. -/
theorem test_clear :
    (nextOf (exec .clear { State.reset with cache := ⟨true, 0x00, 0x10⟩, sink := ⟨0x10, false, true⟩ })).map
      (fun t => (t.cache, t.sink)) = some (⟨true, 0x00, 0x10⟩, ⟨0x00, true, false⟩) := by decide

/-- Z2: `rst` wins over the word of the same step. -/
theorem test_reset_discards_the_word :
    (nextOf (step { withLog [⟨.falling, 0⟩, ⟨.rising, 9300⟩] with inputs := [⟨true, [0x000000000000035E8]⟩] })) =
      some State.reset := by decide

/-- X9 through a step: refused by name. -/
theorem test_illegal_word_step :
    refusalOf (step (State.reset.withFetchWord 72 0x50000000000000000)) = some (.illegalWord .reservedBitSet) := by
  decide

/-! ### The decode cycle's parts (F, V, RC vectors) -/

/-- F1 to F13: preamble windows. -/
theorem test_preamble_vectors :
    [pre 9100 2250, pre 9101 2250, pre 9499 2250, pre 9500 2250, pre 9300 2050, pre 9300 2051, pre 9300 2449,
      pre 9300 2450, pre 9300 4300, pre 9300 4301, pre 9300 4699, pre 9300 4700, pre 9300 1125].map
        (frameDecode Config.hw) =
      [.invalidPreamble, .repeatFrame, .repeatFrame, .invalidPreamble, .invalidPreamble, .repeatFrame, .repeatFrame,
       .invalidPreamble, .invalidPreamble, .newFrame 0 0, .newFrame 0 0, .invalidPreamble, .invalidPreamble] := by
  decide

/-- F14 to F23 and F31: bit windows. -/
theorem test_bit_vectors :
    [[925], [926], [1324], [1325], [2050], [2051], [2449], [2450], [1687], [1500], [2250, 1125, 2250, 3000]].map
        (fun ds => frameDecode Config.hw (preBits ds)) =
      [.invalidBitTiming, .newFrame 0 1, .newFrame 0 1, .invalidBitTiming, .invalidBitTiming, .newFrame 1 1,
       .newFrame 1 1, .invalidBitTiming, .invalidBitTiming, .invalidBitTiming, .invalidBitTiming] := by
  decide

/-- V1 to V4, V9, V10 under `Reject`, V11, V13 and V14 under `Reference`. -/
theorem test_validator_vectors :
    [((ShortFramePolicy.reject, 0x00FF10EF#32), 32), ((.reject, 0x00FF1010), 32), ((.reject, 0x123456A9), 32),
      ((.reject, 0x00000000), 32), ((.reject, 0x00000000), 0), ((.reject, 0x00FF10EF), 24),
      ((.reference, 0x00FF10EF), 24), ((.reference, 0x00FF10EE), 31), ((.reference, 0x0000FF00), 16)].map
        (fun v => (validateFrame { Config.hw with shortFramePolicy := v.1.1 } v.1.2 v.2 State.reset).ports.diag) =
      [0x00FF10EF20100061, 0x00FF101020100027, 0x123456A920561247, 0x0000000020000007, 0x0000000000000008,
       0x00FF10EF18100068, 0x00FF10EF18100061, 0x00FF10EE1F100028, 0x0000FF0010FF0048] := by decide

/-- RC4 and RC2: a hit and an empty cache. -/
theorem test_repeat_vectors :
    (repeatFrame { State.reset with cache := ⟨true, 0xA5, 0x3C⟩ }).ports.diag = 0x00000000003CA512#64 ∧
    (repeatFrame State.reset).ports.diag = 0x0000000000000013#64 := by decide

/-- A trace line and a comment (R83). -/
theorem test_trace_line :
    readLine Config.hw ['E', 'D', 'G', 'E', ' ', 'R', ' ', '9', '3', '0', '0', ' ', ';', ' ', 'x'] =
      some [.txn (.edge .rising 9300)] ∧
    readLine Config.hw ['T', 'I', 'C', 'K', ' ', '0', 'x', '1', 'F'] = some [.txn (.tick 31)] ∧
    readLine Config.hw ['N', 'O', 'P'] = none := by decide

/-! ### Witnesses: concrete states and operands that meet a statement's hypotheses, at the ends of their ranges -/

theorem witness_EachTransactionHasOneWord : decode 0x20000000000002454#68 = .ok (.edge .rising 9300) := by decide

theorem witness_StepPerformsTheDecodedTransaction :
    (State.reset.present 0x4000000000001321B).inputs = ⟨false, [0x4000000000001321B]⟩ :: [] ∧
    decode 0x4000000000001321B#68 = .ok (.tick 78363) := by decide

/-- One word for each way a word is illegal. -/
theorem witness_IllegalWordsAreRefused :
    ((0x10000000000000005#68).extractLsb' 66 2 = 0b00#2 ∧ (0x10000000000000005#68).extractLsb' 64 1 = 1#1) ∧
    ((0x50000000000000000#68).extractLsb' 66 2 = 0b01#2 ∧ (0x50000000000000000#68).extractLsb' 64 1 = 1#1) ∧
    ((0x60000000000000005#68).extractLsb' 66 2 = 0b01#2 ∧ (0x60000000000000005#68).extractLsb' 65 1 = 1#1) ∧
    ((0x80000000000000001#68).extractLsb' 66 2 = 0b10#2 ∧ (0x80000000000000001#68).extractLsb' 0 66 ≠ 0#66) ∧
    ((0xE0000000000000000#68).extractLsb' 66 2 = 0b11#2 ∧ (0xE0000000000000000#68).extractLsb' 0 66 ≠ 0#66) ∧
    (State.reset.present 0x10000000000000005).inputs = [⟨false, [0x10000000000000005]⟩] := by decide

theorem witness_StepWithoutInputDoesNothing :
    State.reset.inputs = [] ∧ { State.reset with inputs := [⟨false, []⟩] }.inputs = ⟨false, []⟩ :: [] := by decide

theorem witness_ResetTakesPriorityAndResetsEveryRegister :
    { withLog fullLog with inputs := [⟨true, [0x000000000000035E8]⟩] }.inputs = ⟨true, [0x000000000000035E8]⟩ :: [] := by
  decide

/-- P4's EDGE and TICK, presented together; and the TICK beside an illegal word. -/
theorem witness_SimultaneousWordsArePerformedOneByOne :
    { withLog frameS1 with inputs := [⟨false, [0x0000000000001321B, 0x4000000000001321B]⟩] }.inputs =
      ⟨false, [0x0000000000001321B, 0x4000000000001321B]⟩ :: [] ∧
    2 ≤ [0x0000000000001321B#68, 0x4000000000001321B#68].length ∧
    2 ≤ [0x4000000000001321B#68, 0x50000000000000000#68].length ∧
    decode 0x50000000000000000#68 = .error .reservedBitSet := by decide

/-- Three words in the reverse order, and the same word twice. -/
theorem witness_EveryArrivalOrderIsAdmitted :
    { State.reset with inputs := [⟨false, [0x5, 0x4000000000001321B, 0x80000000000000000]⟩] }.inputs =
      ⟨false, [0x5#68, 0x4000000000001321B#68, 0x80000000000000000#68]⟩ :: [] ∧
    [0x5#68, 0x4000000000001321B#68, 0x80000000000000000#68] ≠ [] ∧
    [0x80000000000000000#68, 0x4000000000001321B#68, 0x5#68].Perm
      [0x5#68, 0x4000000000001321B#68, 0x80000000000000000#68] ∧
    [0x5#68, 0x5#68].Perm [0x5#68, 0x5#68] := by decide

theorem witness_AnyWaitingWordCanBeNext :
    { State.reset with inputs := [⟨false, [0x0000000000001321B, 0x4000000000001321B]⟩] }.inputs =
      ⟨false, [0x0000000000001321B#68] ++ 0x4000000000001321B#68 :: []⟩ :: [] ∧
    [0x0000000000001321B#68] ++ [] ≠ [] := by decide

/-- P4, with the log one entry below its capacity's end as well. -/
theorem witness_EdgeAndTickDoNotCommute :
    ∀ es ∈ [frameS1, List.replicate 99 (⟨.falling, 68362⟩ : EdgeEvent)],
      (withLog es).log ≠ [] ∧ (withLog es).log.length < 100 ∧ 10000 < (78363 - (withLog es).lastTs).toNat ∧
      (78363 - 68363 : Timestamp).toNat ≤ 10000 := by decide +kernel

theorem witness_OverflowDiscardsTheEdgeWithTheLog : 100 ≤ (withLog fullLog).log.length := by decide +kernel

/-- One edge that fills the log, and one hundred that fill an empty one. -/
theorem witness_EdgesThatFitAreStoredInOrder :
    (withLog (List.replicate 99 (⟨.falling, 0⟩ : EdgeEvent))).log.length + ([] ++ [(⟨.rising, 5⟩ : EdgeEvent)]).length ≤ 100 ∧
    State.reset.log.length + (List.replicate 99 (⟨.falling, 0⟩ : EdgeEvent) ++ [(⟨.rising, 5⟩ : EdgeEvent)]).length ≤ 100 := by
  decide +kernel

theorem witness_OneHundredAndOneEdgesOverflow : State.reset.log = [] ∧ fullLog.length = 100 := by decide +kernel

/-- The empty log, the last gap that does nothing and the first that decodes. -/
theorem witness_TickDecodesOnlyAnIdleLog :
    State.reset.log = [] ∧
    ((withLog [⟨.falling, 0⟩]).log ≠ [] ∧ (10000 - (withLog [⟨.falling, 0⟩]).lastTs).toNat ≤ 10000) ∧
    ((withLog [⟨.falling, 0⟩]).log ≠ [] ∧ 10000 < (10001 - (withLog [⟨.falling, 0⟩]).lastTs).toNat) := by decide

/-- T2, a TICK without an event, and T3, one with an event that is neither ACCEPTED nor REPEAT. -/
theorem witness_TickCompletesWithinItsFrame :
    (nextOf (exec (.tick 10000) (withLog [⟨.falling, 0⟩]))).map (·.event) = some none ∧
    ((nextOf (exec (.tick 10001) (withLog [⟨.falling, 0⟩]))).bind (·.event)).map (·.status) =
      some .insufficientEvents := by decide

/-- T4, and the two sides of the wrap's end. -/
theorem witness_TickBeforeTheLastEdgeWraps :
    (withLog [⟨.falling, 20000⟩]).log ≠ [] ∧ (5 : Timestamp).toNat < (withLog [⟨.falling, 20000⟩]).lastTs.toNat ∧
    (0 : Timestamp).toNat < (withLog [⟨.falling, -10000⟩]).lastTs.toNat ∧
    ¬ (withLog [⟨.falling, -10000⟩]).lastTs.toNat - 0 < 2 ^ 64 - 10000 ∧
    (withLog [⟨.falling, -10001⟩]).lastTs.toNat - 0 < 2 ^ 64 - 10000 := by decide

/-- T3: an idle log. -/
theorem witness_DecodeCycleClearsTheLogAndConcludes :
    (withLog [⟨.falling, 0⟩]).log ≠ [] ∧ 10000 < (10001 - (withLog [⟨.falling, 0⟩]).lastTs).toNat := by decide

/-- The smallest and the largest backward step the statement covers. -/
theorem witness_WindowsAreTheClosedRangesOfTheTable :
    ((0 : Timestamp).toNat < (1 : Timestamp).toNat ∧ (1 : Timestamp).toNat - (0 : Timestamp).toNat ≤ 2 ^ 64 - 9500) ∧
    ((0 : Timestamp).toNat < (-9500 : Timestamp).toNat ∧
      (-9500 : Timestamp).toNat - (0 : Timestamp).toNat ≤ 2 ^ 64 - 9500) := by decide

/-- Two entries; and F24, F25, F26, a wrong kind at each of the three places. -/
theorem witness_ShortLogsAndWrongKindsAreRejected :
    [(⟨.falling, 0⟩ : EdgeEvent), ⟨.rising, 9300⟩].length < 3 ∧ EdgeKind.rising ≠ .falling ∧
      EdgeKind.falling ≠ .rising := by decide

/-- The ends of the start pulse's window and the first values outside it. -/
theorem witness_PreambleIsClassifiedByPulseAndSpace :
    ¬ (9101 ≤ (9100 - 0 : Timestamp).toNat ∧ (9100 - 0 : Timestamp).toNat ≤ 9499) ∧
    ¬ (9101 ≤ (9500 - 0 : Timestamp).toNat ∧ (9500 - 0 : Timestamp).toNat ≤ 9499) ∧
    (9101 ≤ (9101 - 0 : Timestamp).toNat ∧ (9101 - 0 : Timestamp).toNat ≤ 9499) ∧
    (9101 ≤ (9499 - 0 : Timestamp).toNat ∧ (9499 - 0 : Timestamp).toNat ≤ 9499) := by decide

theorem witness_BitWindowsOverlapFromSlack564 :
    inWin { Config.hw with slack := 564 } 1687 2250 = true ∧ inWin { Config.hw with slack := 564 } 1687 1125 = true := by
  decide

/-- The first and the last bit of a frame. -/
theorem witness_PeriodsAppendABitOrAbort : 0 < 32 ∧ 31 < 32 := by decide

theorem witness_FirstBitReceivedIsMostSignificant :
    (byteBits 0x80 ++ byteBits 0 ++ byteBits 0 ++ byteBits 0).length ≤ 32 ∧
    0 < (byteBits 0x80 ++ byteBits 0 ++ byteBits 0 ++ byteBits 0).length ∧
    (fallingPeriods 13800 (periodEdges Config.hw 13800 [2051, 1324])).map periodBit = [true, false].map some := by decide

theorem witness_EntriesAfterThe32ndBitAreIgnored :
    frameDecode Config.hw frameS1 = .newFrame 0x00FF10EF 32 := by decide +kernel

/-- A frame of no bits, and one of 24. -/
theorem witness_NewFramesHaveAtMost32RightAlignedBits :
    frameDecode Config.hw (pre 9300 4500) = .newFrame 0 0 ∧
    frameDecode Config.hw frameF32 = .newFrame 0x00FF10EF 24 := by decide +kernel

/-- Pulse, space and periods at the ends of their windows. -/
theorem witness_FramesWithinTheWindowsDecode :
    9101 ≤ (9101 : Timestamp).toNat ∧ (9499 : Timestamp).toNat ≤ 9499 ∧ 4301 ≤ (4301 : Timestamp).toNat ∧
    (4699 : Timestamp).toNat ≤ 4699 ∧ (List.replicate 32 (2051 : Timestamp)).length ≤ 32 ∧
    [926, 1324, 2051, 2449].map periodBit = [false, false, true, true].map some := by decide

theorem witness_OneBadPeriodDiscardsTheFrame :
    [925, 1325, 2050, 2450].map periodBit = [none, none, none, none] ∧
    (List.replicate 31 (1125 : Timestamp)).length < 32 := by decide

theorem witness_ValidateFrameAcceptsOrReports : 0 ≤ 32 ∧ 32 ≤ 32 := by decide

/-- An accepted frame and one that is not. -/
theorem witness_OnlyFullValidFramesAreAccepted :
    (32 = 32 ∧ addressValid 0x00FF10EF = true ∧ commandValid 0x00FF10EF = true) ∧
    ¬ (31 = 32 ∧ addressValid 0x00FF10EF = true ∧ commandValid 0x00FF10EF = true) := by decide

theorem witness_ShortFramesPassChecksumsOnlyFrom24Bits :
    frameDecode Config.hw frameF32 = .newFrame 0x00FF10EF 24 ∧ addressValid 0x00FF10EF = true ∧
    commandValid 0x00FF10EF = true := by decide +kernel

theorem witness_IdleTickAcceptsAValidFrame :
    10000 < (78363 - (withLog frameS1).lastTs).toNat ∧
    frameDecode Config.hw (withLog frameS1).log = .newFrame (0x00#8 ++ ~~~0x00#8 ++ 0x10#8 ++ ~~~0x10#8) 32 := by
  decide +kernel

/-- R174's trace, with the cache loaded and empty. -/
theorem witness_IdleTickReplaysOnARepeatFrame :
    (withLog (pre 9300 2250)).log = preambleEdges 0 9300 2250 ++ [] ∧
    10000 < (21551 - (withLog (pre 9300 2250)).lastTs).toNat ∧
    { withLog (pre 9300 2250) with cache := ⟨true, 0x00, 0x10⟩ }.cache.valid = true ∧
    (withLog (pre 9300 2250)).cache.valid = false ∧
    (2051 ≤ (2051 : Timestamp).toNat ∧ (2449 : Timestamp).toNat ≤ 2449) := by decide

theorem witness_CapturedNecFrameIsAccepted :
    State.reset.log = [] ∧
    (nextOf (execAll (necFrame Config.hw 0 0x00 (~~~0x00) 0x10 (~~~0x10)) State.reset)).map (·.lastTs) = some 68362 ∧
    10000 < (78363 - 68362 : Timestamp).toNat := by decide +kernel

/-- S1's accepted frame. -/
theorem witness_AckRacesADecoderWrite :
    ((nextOf (exec (.tick 78363) (withLog frameS1))).bind (·.event)).map (·.status.isAccepted) = some true := by
  decide +kernel

/-- Distinct statuses have distinct codes, so the premise is met by a status and itself. -/
theorem witness_StatusCodesAreThoseOfTheTable : Status.accepted.code = Status.accepted.code := by decide

/-- A state with an event, one without, and a full log. -/
theorem witness_PortsShowRegistersAndTheEvent :
    State.reset.event = none ∧ (repeatFrame State.reset).event.isSome = true ∧ fullLog.length ≤ 100 := by
  decide +kernel

theorem witness_TickReportsTheFirstStatusThatApplies :
    (withLog [⟨.falling, 0⟩]).log ≠ [] ∧ 10000 < (10001 - (withLog [⟨.falling, 0⟩]).lastTs).toNat := by decide

/-- T3: a decoder error. -/
theorem witness_ErrorsLeaveCacheAndSinkAndAnEmptyLog :
    ((nextOf (exec (.tick 10001) (withLog [⟨.falling, 0⟩]))).bind (·.event)).map (·.status.isError) = some true := by
  decide

/-- CLEAR changes the sink; so does S1's TICK. -/
theorem witness_OnlyGoodDecodesAndTheConsumerWriteTheSink :
    (nextOf (exec .clear { State.reset with sink := ⟨0x10, false, false⟩ })).map (·.sink) ≠ some ⟨0x10, false, false⟩ ∧
    (nextOf (exec (.tick 78363) (withLog frameS1))).map (·.sink) ≠ some (withLog frameS1).sink := by decide +kernel

/-- S1's TICK, presented as a word, changes the cache; so does a reset of a loaded cache. -/
theorem witness_OnlyAcceptedFramesAndResetWriteTheCache :
    ((nextOf (step ((withLog frameS1).present 0x4000000000001321B))).map (·.cache)) = some ⟨true, 0x00, 0x10⟩ ∧
    ((nextOf (step { State.reset with cache := ⟨true, 1, 2⟩, inputs := [⟨true, []⟩] })).map (·.cache)) =
      some ⟨false, 0, 0⟩ := by decide +kernel

/-- An EDGE and a step without input both answer a next state. -/
theorem witness_LogEntriesAreImmutable :
    (nextOf (step (State.reset.present 0x20000000000002454))).isSome = true ∧ (nextOf (step State.reset)).isSome = true := by
  decide

theorem witness_StepsNeverFaultAndRefuseOnlyIllegalWords :
    refusalOf (step (State.reset.present 0x80000000000000001)) = some (.illegalWord .nonzeroFieldOnBare) ∧
    (State.reset.present 0x80000000000000001).takeInput Config.hw = (.word 0x80000000000000001, State.reset) ∧
    decode 0x80000000000000001#68 = .error .nonzeroFieldOnBare := by decide

/-- A state of a run after an accepted frame, not yet acknowledged, with a new edge in the log. -/
def capturing : State :=
  { State.reset with
    log := [⟨.falling, 78363⟩], lastTs := 78363, cache := ⟨true, 0x00, 0x10⟩, sink := ⟨0x10, false, false⟩ }

theorem witness_EveryStepKeepsTheInvariant :
    capturing.Inv ∧ (nextOf (step (capturing.present 0x4000000000001592C))).isSome = true := by
  refine ⟨⟨by simp [State.LogBounded, capturing, Config.hw], ?_, ?_, ?_, ?_⟩, by decide⟩
  · simp [State.LastTsAgrees, capturing]
  · simp [State.SinkFromCache, capturing]
  · simp [State.EmptyCacheClear, capturing]
  · simp [State.EventClearsLog, capturing, State.reset]

/-- Two states that differ in `last_ts` under an empty log and in the pair under an empty cache. -/
theorem witness_UnreadRegistersAreNeverObservable :
    State.reset.SameToHost { State.reset with lastTs := 49500, cache := ⟨false, 0x12, 0x34⟩ } :=
  ⟨rfl, .inl rfl, rfl, .inl rfl, rfl, rfl, rfl, rfl⟩

end Sys2Proof.Tests
end

section
/-! The statements of 00_scope.md: what a step does with the input it takes (R14), and the gap of a TICK whose time lies
before `last_ts`, as R12's difference modulo 2^64 gives it (R123). -/

namespace Sys2Proof.Machine

/-! ### Taking one input -/

/-- With nothing presented there is nothing to take. -/
theorem takeInput_of_inputs_nil (c : Config) {s : State} (h : s.inputs = []) : s.takeInput c = (.nothing, s) := by
  simp [State.takeInput, h]

/-- An instant with neither `rst` nor a word is passed over. -/
theorem takeInput_of_no_word (c : Config) {s : State} {later : List Presentation}
    (h : s.inputs = ⟨false, []⟩ :: later) : s.takeInput c = (.nothing, { s with inputs := later }) := by
  simp [State.takeInput, h]

/-- A word alone in its instant is the one taken, whatever `ARRIVAL_ORDER` is. -/
theorem takeInput_of_one_word (c : Config) {s : State} {w : InWord} {later : List Presentation}
    (h : s.inputs = ⟨false, [w]⟩ :: later) : s.takeInput c = (.word w, { s with inputs := later }) := by
  simp [State.takeInput, h]

/-! ### TICK and its decode cycle -/

/-- A decode cycle never faults: it concludes on the log as it stood, with the log cleared (R122). -/
theorem decodeCycle_eq (c : Config) (s : State) :
    decodeCycle c s = .next (conclude c (frameDecode c s.log) s.logClear) := by
  rw [decodeCycle, State.snapshot_eq]

/-- TICK on a log that is not empty: the gap alone decides whether the decode cycle runs (R121). -/
theorem exec_tick_of_log_ne_nil (now : Timestamp) {s : State} (hlog : s.log ≠ []) :
    exec (.tick now) s =
      if 10000 < (now - s.lastTs).toNat then decodeCycle Config.hw s else .next s.noEvent := by
  have hexec : exec (.tick now) s = execTick now s := rfl
  rw [hexec, execTick_eq, decodeCycle_eq]
  by_cases hgap : 10000 < (now - s.lastTs).toNat
  · rw [if_pos ⟨hlog, hgap⟩, if_pos hgap]
  · rw [if_neg (fun h => hgap h.2), if_neg hgap]

/-! ### The obligations -/

/-- Settles O20: the gap is 2^64 less the step backwards, so it passes the threshold of 10000 exactly when that step is
below 2^64 − 10000. -/
theorem tickBeforeTheLastEdgeWraps : Obligations.TickBeforeTheLastEdgeWraps := by
  unfold Obligations.TickBeforeTheLastEdgeWraps
  intro now s hlog hbefore
  have hidle : 10000 < (now - s.lastTs).toNat ↔ s.lastTs.toNat - now.toNat < 2 ^ 64 - 10000 := by
    rw [BitVec.toNat_sub_of_lt hbefore]
    omega
  rw [exec_tick_of_log_ne_nil now hlog, if_congr hidle rfl rfl, State.noEvent]

/-- Settles O6: the word is the input taken, and a legal word is performed as its transaction. -/
theorem stepPerformsTheDecodedTransaction : Obligations.StepPerformsTheDecodedTransaction := by
  unfold Obligations.StepPerformsTheDecodedTransaction
  intro s w later i hin hdec
  rw [step, takeInput_of_one_word Config.hw hin, perform_legal hdec]

/-- Settles O8: both ways of presenting no input take `nothing`, which only ends the event. -/
theorem stepWithoutInputDoesNothing : Obligations.StepWithoutInputDoesNothing := by
  unfold Obligations.StepWithoutInputDoesNothing
  intro s later
  constructor
  · intro hin
    rw [step, takeInput_of_inputs_nil Config.hw hin, perform_nothing, State.noEvent]
  · intro hin
    rw [step, takeInput_of_no_word Config.hw hin, perform_nothing, State.noEvent]

end Sys2Proof.Machine
end

section
/-! The statements of 10_state.md: the invariant of the block (R21, R25, R26), what a step can write to RepeatCache and
the EdgeLog (R23, R25, R26), and the registers no rule reads (R20, R25, R27). -/

namespace Sys2Proof.Machine

/-! ### A completed step, and its log and cache -/

/-- Everything a completed step can do: end the event, reset, or perform a transaction; before it only what is still to be
presented and the count of draws change. -/
theorem step_next_cases {s t : State} (h : step s = .next t) :
    (∃ later, t = { s with inputs := later }.noEvent) ∨
    (∃ words later, s.inputs = ⟨true, words⟩ :: later ∧ t = { s with inputs := later }.resetBlock) ∨
    ∃ i later draws, exec i { s with inputs := later, draws := draws } = .next t := by
  rcases step_cases h with ⟨-, ht⟩ | ⟨later, -, ht⟩ | ⟨words, later, hin, ht⟩ |
    ⟨_, later, draws, -, ⟨i, -, ht⟩ | ⟨_, -, ht⟩⟩
  · cases ht; exact .inl ⟨s.inputs, rfl⟩
  · cases ht; exact .inl ⟨later, rfl⟩
  · cases ht; exact .inr (.inl ⟨words, later, hin, rfl⟩)
  · exact .inr (.inr ⟨i, later, draws, ht.symm⟩)
  · cases ht

/-- A decode cycle writes RepeatCache only when it accepts, and then with the event's pair (R26, R166). -/
theorem conclude_cache (c : Config) (r : DecodeResult) (s : State) :
    (conclude c r s).cache = s.cache ∨
    ∃ d, (conclude c r s).event = some d ∧ d.status = .accepted ∧
      (conclude c r s).cache = { valid := true, addr := d.address, cmd := d.command } := by
  rcases conclude_cases c r s with ⟨bits, n, -, -, -, -, h⟩ | ⟨-, -, h⟩ | ⟨d, -, -, h⟩
  · rw [h]; exact .inr ⟨frameDiag .accepted bits n, rfl, rfl, rfl⟩
  · rw [h]; exact .inl rfl
  · rw [h]; exact .inl rfl

/-- A transaction writes RepeatCache only by accepting a frame, with the event's pair (R26). -/
theorem exec_cache {i : Instr} {s t : State} (h : exec i s = .next t) :
    t.cache = s.cache ∨
    ∃ d, t.event = some d ∧ d.status = .accepted ∧
      t.cache = { valid := true, addr := d.address, cmd := d.command } := by
  rcases exec_cases h with ⟨_, _, -, -, ht⟩ | ⟨_, _, -, -, ht⟩ | ⟨_, -, -, ht⟩ | ⟨_, -, -, -, ht⟩ | ⟨-, ht⟩ | ⟨-, ht⟩ <;>
    cases ht
  · exact .inl rfl
  · exact .inl rfl
  · exact .inl rfl
  · exact conclude_cache Config.hw (frameDecode Config.hw s.log) s.logClear
  · exact .inl rfl
  · exact .inl rfl

/-- A transaction keeps the log, empties it, or appends one entry, whose timestamp alone goes to `last_ts` (R23, R25). -/
theorem exec_log {i : Instr} {s t : State} (h : exec i s = .next t) :
    (t.log = s.log ∧ t.lastTs = s.lastTs) ∨ (t.log = [] ∧ t.lastTs = s.lastTs) ∨
    ∃ e, t.log = s.log ++ [e] ∧ t.lastTs = e.ts := by
  rcases exec_cases h with ⟨kind, ts, -, -, ht⟩ | ⟨_, _, -, -, ht⟩ | ⟨_, -, -, ht⟩ | ⟨_, -, -, -, ht⟩ | ⟨-, ht⟩ |
    ⟨-, ht⟩ <;> cases ht
  · exact .inr (.inr ⟨⟨kind, ts⟩, rfl, rfl⟩)
  · exact .inr (.inl ⟨rfl, rfl⟩)
  · exact .inl ⟨rfl, rfl⟩
  · obtain ⟨hlog, hts, -⟩ := conclude_frame Config.hw (frameDecode Config.hw s.log) s.logClear
    exact .inr (.inl ⟨hlog, hts⟩)
  · exact .inl ⟨rfl, rfl⟩
  · exact .inl ⟨rfl, rfl⟩

/-! ### The invariant, operation by operation -/

namespace State.Inv

variable {s : State}

/-- The invariant says nothing of what is still to be presented, nor of the count of draws. -/
theorem withInputs (h : s.Inv) (later : List Presentation) (draws : Nat) :
    { s with inputs := later, draws := draws }.Inv := by
  obtain ⟨hbound, hts, hsink, hcache, hevent⟩ := h
  exact ⟨hbound, hts, hsink, hcache, hevent⟩

theorem noEvent (h : s.Inv) : s.noEvent.Inv := by
  obtain ⟨hbound, hts, hsink, hcache, -⟩ := h
  exact ⟨hbound, hts, hsink, hcache, fun he => absurd rfl he⟩

theorem logClear (h : s.Inv) : s.logClear.Inv := by
  obtain ⟨-, -, hsink, hcache, -⟩ := h
  exact ⟨Nat.zero_le _, fun e he => by simp at he, hsink, hcache, fun _ => rfl⟩

/-- An event is in order once the log is empty (60_exceptions.md R202). -/
theorem emit (h : s.Inv) (hlog : s.log = []) (d : Diag) : (s.emit d).Inv := by
  obtain ⟨hbound, hts, hsink, hcache, -⟩ := h
  exact ⟨hbound, hts, hsink, hcache, fun _ => hlog⟩

/-- An append below the capacity: the new last entry is the one `last_ts` is taken from (R25). -/
theorem logAppend_noEvent (h : s.Inv) (hroom : s.log.length < 100) (kind : EdgeKind) (ts : Timestamp) :
    (s.logAppend kind ts).noEvent.Inv := by
  obtain ⟨-, -, hsink, hcache, -⟩ := h
  refine ⟨State.LogBounded_logAppend s 100 hroom kind ts, fun e he => ?_, hsink, hcache, fun he => absurd rfl he⟩
  have hlast : some ⟨kind, ts⟩ = some e := (s.logAppend_getLast? kind ts).symm.trans he
  cases hlast
  rfl

/-- A sink that is unacknowledged or a repeat only with the cached command may replace the sink. -/
theorem withSink (h : s.Inv) (k : CommandSink)
    (hk : (k.consumed = false ∨ k.isRepeat = true) → s.cache.valid = true ∧ k.cmd = s.cache.cmd) :
    { s with sink := k }.Inv := by
  obtain ⟨hbound, hts, -, hcache, hevent⟩ := h
  exact ⟨hbound, hts, hk, hcache, hevent⟩

/-- The sink may take any command with the cache taking the same one: the two writes of an acceptance (R166). -/
theorem cacheWrite_sinkWrite (h : s.Inv) (addr cmd : Byte) (rep : Bool) :
    ((s.cacheWrite addr cmd).sinkWrite cmd rep).Inv := by
  obtain ⟨hbound, hts, -, -, hevent⟩ := h
  exact ⟨hbound, hts, fun _ => ⟨rfl, rfl⟩, fun hv => absurd hv (by simp), hevent⟩

/-- Reset establishes the invariant from any state (70_reset_and_hazards.md R230). -/
theorem resetBlock (s : State) : s.resetBlock.Inv :=
  ⟨Nat.zero_le _, fun e he => by simp at he, fun hk => by simp at hk, fun _ => ⟨rfl, rfl⟩, fun _ => rfl⟩

/-- A decode cycle's conclusion on the cleared log: RepeatCache and CommandSink take the same command, or CommandSink
takes the cached one, or neither is written (R173). -/
theorem conclude (h : s.Inv) (hlog : s.log = []) (c : Config) (r : DecodeResult) : (conclude c r s).Inv := by
  rcases conclude_cases c r s with ⟨bits, n, -, -, -, -, heq⟩ | ⟨-, hvalid, heq⟩ | ⟨d, -, -, heq⟩
  · rw [heq]; exact (h.cacheWrite_sinkWrite _ _ _).emit hlog _
  · rw [heq]; exact (h.withSink ⟨s.cache.cmd, false, true⟩ fun _ => ⟨hvalid, rfl⟩).emit hlog _
  · rw [heq]; exact h.emit hlog d

/-- Every transaction keeps the invariant; ACK only weakens what it asks of the sink, and CLEAR asks nothing. -/
theorem exec {i : Instr} {t : State} (h : s.Inv) (hexec : exec i s = .next t) : t.Inv := by
  rcases exec_cases hexec with ⟨kind, ts, -, hroom, ht⟩ | ⟨_, _, -, -, ht⟩ | ⟨_, -, -, ht⟩ | ⟨_, -, -, -, ht⟩ | ⟨-, ht⟩ |
    ⟨-, ht⟩ <;> cases ht
  · exact h.logAppend_noEvent hroom kind ts
  · exact h.logClear.emit rfl _
  · exact h.noEvent
  · exact h.logClear.conclude rfl _ _
  · exact (h.withSink { s.sink with consumed := true } fun hk => h.sinkFromCache (hk.imp_left (by simp))).noEvent
  · exact (h.withSink ⟨0, true, false⟩ fun hk => by simp at hk).noEvent

end State.Inv

/-! ### States that look the same to the host -/

/-- Which input is taken, and what is then still to be presented and drawn, depends on nothing but what is presented and
drawn so far. -/
theorem takeInput_congr (c : Config) {s t : State} (hin : s.inputs = t.inputs) (hdraws : s.draws = t.draws) :
    ∃ x later draws, s.takeInput c = (x, { s with inputs := later, draws := draws }) ∧
      t.takeInput c = (x, { t with inputs := later, draws := draws }) := by
  obtain ⟨_, _, _, _, _, inputs, draws⟩ := s
  obtain ⟨_, _, _, _, _, _, _⟩ := t
  cases hin
  cases hdraws
  match inputs with
  | [] => exact ⟨_, _, _, rfl, rfl⟩
  | ⟨true, _⟩ :: _ => exact ⟨_, _, _, rfl, rfl⟩
  | ⟨false, []⟩ :: _ => exact ⟨_, _, _, rfl, rfl⟩
  | ⟨false, [_]⟩ :: _ => exact ⟨_, _, _, rfl, rfl⟩
  | ⟨false, _ :: _ :: _⟩ :: _ => exact ⟨_, _, _, rfl, rfl⟩

namespace State.SameToHost

variable {s t : State}

theorem withInputs (h : s.SameToHost t) (later : List Presentation) (draws : Nat) :
    { s with inputs := later, draws := draws }.SameToHost { t with inputs := later, draws := draws } := by
  obtain ⟨hlog, hts, hvalid, hpair, hsink, hevent, -, -⟩ := h
  exact ⟨hlog, hts, hvalid, hpair, hsink, hevent, rfl, rfl⟩

theorem noEvent (h : s.SameToHost t) : s.noEvent.SameToHost t.noEvent := by
  obtain ⟨hlog, hts, hvalid, hpair, hsink, -, hin, hdraws⟩ := h
  exact ⟨hlog, hts, hvalid, hpair, hsink, rfl, hin, hdraws⟩

theorem emit (h : s.SameToHost t) (d : Diag) : (s.emit d).SameToHost (t.emit d) := by
  obtain ⟨hlog, hts, hvalid, hpair, hsink, -, hin, hdraws⟩ := h
  exact ⟨hlog, hts, hvalid, hpair, hsink, rfl, hin, hdraws⟩

/-- Under the log just emptied the two `last_ts` may differ. -/
theorem logClear (h : s.SameToHost t) : s.logClear.SameToHost t.logClear := by
  obtain ⟨-, -, hvalid, hpair, hsink, hevent, hin, hdraws⟩ := h
  exact ⟨rfl, .inl rfl, hvalid, hpair, hsink, hevent, hin, hdraws⟩

/-- An append writes `last_ts`, whatever it was. -/
theorem logAppend (h : s.SameToHost t) (kind : EdgeKind) (ts : Timestamp) :
    (s.logAppend kind ts).SameToHost (t.logAppend kind ts) := by
  obtain ⟨hlog, -, hvalid, hpair, hsink, hevent, hin, hdraws⟩ := h
  exact ⟨by simp [hlog], .inr rfl, hvalid, hpair, hsink, hevent, hin, hdraws⟩

theorem withSink (h : s.SameToHost t) (k : CommandSink) : { s with sink := k }.SameToHost { t with sink := k } := by
  obtain ⟨hlog, hts, hvalid, hpair, -, hevent, hin, hdraws⟩ := h
  exact ⟨hlog, hts, hvalid, hpair, rfl, hevent, hin, hdraws⟩

/-- An acceptance writes the whole pair, whatever it was. -/
theorem cacheWrite (h : s.SameToHost t) (addr cmd : Byte) : (s.cacheWrite addr cmd).SameToHost (t.cacheWrite addr cmd) := by
  obtain ⟨hlog, hts, -, -, hsink, hevent, hin, hdraws⟩ := h
  exact ⟨hlog, hts, rfl, .inr ⟨rfl, rfl⟩, hsink, hevent, hin, hdraws⟩

theorem resetBlock (h : s.SameToHost t) : s.resetBlock.SameToHost t.resetBlock :=
  ⟨rfl, .inr rfl, rfl, .inr ⟨rfl, rfl⟩, rfl, rfl, h.inputs, h.draws⟩

/-- A repeat frame reads the cached pair only when the cache is valid, and then the two pairs agree (R20, R170). -/
theorem repeatFrame (h : s.SameToHost t) : (repeatFrame s).SameToHost (repeatFrame t) := by
  unfold Machine.repeatFrame
  cases hv : s.cache.valid with
  | true =>
    obtain ⟨haddr, hcmd⟩ := h.cachePair.resolve_left (by simp [hv])
    rw [← h.cacheValid, hv, if_pos rfl, if_pos rfl, haddr, hcmd]
    exact (h.withSink _).emit _
  | false =>
    rw [← h.cacheValid, hv, if_neg Bool.false_ne_true, if_neg Bool.false_ne_true]
    exact h.emit _

/-- Whether a frame is accepted depends on the frame alone. -/
theorem validateFrame (h : s.SameToHost t) (c : Config) (bits : Payload) (n : Nat) :
    (validateFrame c bits n s).SameToHost (validateFrame c bits n t) := by
  unfold Machine.validateFrame
  split
  · exact h.emit _
  · split
    · exact ((h.cacheWrite _ _).withSink _).emit _
    · exact h.emit _

theorem conclude (h : s.SameToHost t) (c : Config) (r : DecodeResult) :
    (conclude c r s).SameToHost (conclude c r t) := by
  cases r with
  | repeatFrame => exact h.repeatFrame
  | newFrame bits n => exact h.validateFrame c bits n
  | insufficientEvents => exact h.emit _
  | invalidPreamble => exact h.emit _
  | invalidBitTiming => exact h.emit _

/-- A TICK reads `last_ts` only under a log that is not empty, where the two agree (R25, R121). -/
theorem idle_iff (h : s.SameToHost t) (now : Timestamp) :
    (s.log ≠ [] ∧ 10000 < (now - s.lastTs).toNat) ↔ (t.log ≠ [] ∧ 10000 < (now - t.lastTs).toNat) := by
  rw [← h.log]
  refine and_congr_right fun hlog => ?_
  rw [h.lastTs.resolve_left hlog]

/-- A transaction completes in both states, along the same branch, and leaves them alike to the host. -/
theorem exec (h : s.SameToHost t) (i : Instr) :
    ∃ s' t', exec i s = .next s' ∧ exec i t = .next t' ∧ s'.SameToHost t' := by
  cases i with
  | edge kind ts =>
    refine ⟨_, _, execEdge_eq kind ts s, execEdge_eq kind ts t, ?_⟩
    rw [← h.log]
    split
    · exact (h.logAppend kind ts).noEvent
    · exact h.logClear.emit _
  | tick now =>
    refine ⟨_, _, execTick_eq now s, execTick_eq now t, ?_⟩
    rw [if_congr (h.idle_iff now).symm rfl rfl, ← h.log]
    split
    · exact h.logClear.conclude _ _
    · exact h.noEvent
  | ack =>
    refine ⟨_, _, execAck_eq s, execAck_eq t, ?_⟩
    rw [← h.sink]
    exact (h.withSink { s.sink with consumed := true }).noEvent
  | clear => exact ⟨_, _, execClear_eq s, execClear_eq t, (h.withSink ⟨0, true, false⟩).noEvent⟩

/-- The ports show neither `last_ts` nor the cached pair (R32). -/
theorem ports_eq (h : s.SameToHost t) : s.ports = t.ports := by
  simp [State.ports, State.logLen, h.log, h.sink, h.event]

end State.SameToHost

/-! ### The sink is written and never read by the decoder -/

/-- What a decode cycle concludes does not depend on the sink it finds: it leaves two sinks as they were or writes both
alike, and everything else is the same (R27, R172). -/
theorem conclude_ignores_sink (c : Config) (r : DecodeResult) (s : State) (k : CommandSink) :
    (conclude c r s).EqualButSink (conclude c r { s with sink := k }) ∧
    ((conclude c r s).sink = (conclude c r { s with sink := k }).sink ∨
      ((conclude c r s).sink = s.sink ∧ (conclude c r { s with sink := k }).sink = k)) := by
  cases r with
  | repeatFrame =>
    simp only [conclude, repeatFrame]
    split
    · exact ⟨rfl, .inl rfl⟩
    · exact ⟨rfl, .inr ⟨rfl, rfl⟩⟩
  | newFrame bits n =>
    simp only [conclude, validateFrame]
    split
    · exact ⟨rfl, .inr ⟨rfl, rfl⟩⟩
    · split
      · exact ⟨rfl, .inl rfl⟩
      · exact ⟨rfl, .inr ⟨rfl, rfl⟩⟩
  | insufficientEvents => exact ⟨rfl, .inr ⟨rfl, rfl⟩⟩
  | invalidPreamble => exact ⟨rfl, .inr ⟨rfl, rfl⟩⟩
  | invalidBitTiming => exact ⟨rfl, .inr ⟨rfl, rfl⟩⟩

/-! ### The obligations -/

/-- Settles O57: idling only ends the event, reset establishes the invariant, and every transaction keeps it. -/
theorem everyStepKeepsTheInvariant : Obligations.EveryStepKeepsTheInvariant := by
  unfold Obligations.EveryStepKeepsTheInvariant
  intro s t hs hstep
  rcases step_next_cases hstep with ⟨later, rfl⟩ | ⟨_, later, -, rfl⟩ | ⟨i, later, draws, hexec⟩
  · exact (hs.withInputs later s.draws).noEvent
  · exact .resetBlock _
  · exact (hs.withInputs later draws).exec hexec

/-- Settles O59: both states take the same input, and each way of performing it keeps them alike to the host. -/
theorem unreadRegistersAreNeverObservable : Obligations.UnreadRegistersAreNeverObservable := by
  unfold Obligations.UnreadRegistersAreNeverObservable
  intro s t h
  refine ⟨h.ports_eq, ?_⟩
  obtain ⟨x, later, draws, hs, ht⟩ := takeInput_congr Config.hw h.inputs h.draws
  have hsame := h.withInputs later draws
  rw [step, step, hs, ht]
  cases x with
  | nothing => exact hsame.noEvent
  | reset => exact hsame.resetBlock
  | word w =>
    cases hw : decode w with
    | ok i =>
      obtain ⟨s', t', hexec_s, hexec_t, hsame'⟩ := hsame.exec i
      rw [perform_legal hw, perform_legal hw, hexec_s, hexec_t]
      exact hsame'
    | error why => rw [perform_illegal hw, perform_illegal hw]

/-- Settles O52: a transaction changes the cache only by accepting, and without one only reset does. -/
theorem onlyAcceptedFramesAndResetWriteTheCache : Obligations.OnlyAcceptedFramesAndResetWriteTheCache := by
  unfold Obligations.OnlyAcceptedFramesAndResetWriteTheCache
  intro s t hstep hne
  rcases step_next_cases hstep with ⟨later, rfl⟩ | ⟨words, later, hin, rfl⟩ | ⟨i, later, draws, hexec⟩
  · exact absurd rfl hne
  · exact .inr ⟨⟨words, later, hin⟩, rfl⟩
  · exact .inl ((exec_cache hexec).resolve_left hne)

/-- Settles O53: idling keeps the log, reset empties it, and a transaction does one of the three things R23 allows. -/
theorem logEntriesAreImmutable : Obligations.LogEntriesAreImmutable := by
  unfold Obligations.LogEntriesAreImmutable
  intro s t hstep
  rcases step_next_cases hstep with ⟨later, rfl⟩ | ⟨_, later, -, rfl⟩ | ⟨i, later, draws, hexec⟩
  · exact .inl ⟨rfl, rfl⟩
  · exact .inr (.inl ⟨rfl, .inr rfl⟩)
  · rcases exec_log hexec with hkeep | ⟨hlog, hts⟩ | happend
    · exact .inl hkeep
    · exact .inr (.inl ⟨hlog, .inl hts⟩)
    · exact .inr (.inr happend)

/-- Settles O58: no transaction's branch looks at the sink; EDGE keeps it, CLEAR overwrites it, ACK is the exempted one,
and TICK keeps it or concludes a decode cycle. -/
theorem nothingReadsTheSink : Obligations.NothingReadsTheSink := by
  unfold Obligations.NothingReadsTheSink
  intro i s k
  cases i with
  | edge kind ts =>
    refine ⟨_, _, execEdge_eq kind ts s, execEdge_eq kind ts _, ?_⟩
    split
    · exact ⟨rfl, .inr (.inl ⟨rfl, rfl⟩)⟩
    · exact ⟨rfl, .inr (.inl ⟨rfl, rfl⟩)⟩
  | tick now =>
    refine ⟨_, _, execTick_eq now s, execTick_eq now _, ?_⟩
    split
    · obtain ⟨heq, hsink⟩ := conclude_ignores_sink Config.hw (frameDecode Config.hw s.log) s.logClear k
      exact ⟨heq, hsink.imp_right .inl⟩
    · exact ⟨rfl, .inr (.inl ⟨rfl, rfl⟩)⟩
  | ack => exact ⟨_, _, execAck_eq s, execAck_eq _, rfl, .inr (.inr rfl)⟩
  | clear => exact ⟨_, _, execClear_eq s, execClear_eq _, rfl, .inl rfl⟩

end Sys2Proof.Machine
end

section
/-! The statements of 30_encoding.md section 1 on words: the encoder and the decoder are inverse to each other (R85), the
legal words are those of the table (R75), and an illegal word is refused (R76). -/

namespace Sys2Proof

namespace InWord

/-! ### A word and its four fields -/

/-- Two words with the same fields are the same word (R71). -/
theorem ext_fields_iff {v w : InWord} :
    v = w ↔ v.op = w.op ∧ v.kindBit = w.kindBit ∧ v.rsv = w.rsv ∧ v.ts = w.ts := by
  refine ⟨fun h => h ▸ ⟨rfl, rfl, rfl, rfl⟩, ?_⟩
  rintro ⟨hop, hkind, hrsv, hts⟩
  rw [← ofFields_eta v, ← ofFields_eta w, hop, hkind, hrsv, hts]

/-- The word built from four fields is the one that has them. -/
theorem ofFields_eq_iff {op : BitVec 2} {kind rsv : BitVec 1} {ts : Timestamp} {w : InWord} :
    ofFields op kind rsv ts = w ↔ w.op = op ∧ w.kindBit = kind ∧ w.rsv = rsv ∧ w.ts = ts := by
  rw [eq_comm, ext_fields_iff, op_ofFields, kindBit_ofFields, rsv_ofFields, ts_ofFields]

/-- A word as the sum of its shifted fields: each bit of the word belongs to one field (R71). -/
theorem ofFields_eq_shifts (op : BitVec 2) (kind rsv : BitVec 1) (ts : Timestamp) :
    ofFields op kind rsv ts =
      op.setWidth 68 <<< 66 ||| kind.setWidth 68 <<< 65 ||| rsv.setWidth 68 <<< 64 ||| ts.setWidth 68 := by
  apply BitVec.eq_of_getLsbD_eq
  intro i hi
  simp only [ofFields, BitVec.getLsbD_append, BitVec.getLsbD_or, BitVec.getLsbD_shiftLeft, BitVec.getLsbD_setWidth, hi]
  split <;> grind

/-- Two bits hold one of four opcodes (R72). -/
theorem op_cases (w : InWord) : w.op = 0b00#2 ∨ w.op = 0b01#2 ∨ w.op = 0b10#2 ∨ w.op = 0b11#2 := by
  generalize w.op = op
  revert op
  decide

end InWord

/-- A bit is the bit of the kind it stands for (R73). -/
theorem EdgeKind.eq_toBit_iff (kind : EdgeKind) (b : BitVec 1) : b = kind.toBit ↔ kind = .ofBit b := by
  constructor
  · rintro rfl; rw [ofBit_toBit]
  · rintro rfl; rw [toBit_ofBit]

/-- The `kind` bit is bit 65 (R74), and 1 stands for a rising edge (R73). -/
theorem EdgeKind.ofBit_kindBit (w : InWord) : ofBit w.kindBit = if w.getLsbD 65 then .rising else .falling := by
  have hbit : w.kindBit = 1#1 ↔ w.getLsbD 65 = true := by
    simp [InWord.kindBit, BitVec.eq_of_getLsbD_eq_iff]
  rw [ofBit, if_congr hbit rfl rfl]

/-! ### The word of a transaction, by its fields -/

/-- An EDGE's word has `op = 00` and `rsv = 0`, and `kind` and `ts` as its operands (R72, R73). -/
theorem encode_edge_eq_iff (kind : EdgeKind) (ts : Timestamp) (w : InWord) :
    encode (.edge kind ts) = w ↔ w.op = 0b00#2 ∧ w.rsv = 0#1 ∧ kind = .ofBit w.kindBit ∧ ts = w.ts := by
  rw [encode, InWord.ofFields_eq_iff, EdgeKind.eq_toBit_iff, eq_comm (b := ts), and_left_comm (a := w.rsv = 0#1)]
  rfl

/-- A TICK's word has `op = 01`, `kind` and `rsv` 0, and `ts` as its operand (R72, R75). -/
theorem encode_tick_eq_iff (now : Timestamp) (w : InWord) :
    encode (.tick now) = w ↔ w.op = 0b01#2 ∧ w.kindBit = 0#1 ∧ w.rsv = 0#1 ∧ now = w.ts := by
  rw [encode, InWord.ofFields_eq_iff, eq_comm (b := now)]
  rfl

/-- ACK's word has `op = 10` and nothing below it (R75). -/
theorem encode_ack_eq_iff (w : InWord) : encode .ack = w ↔ w.op = 0b10#2 ∧ w.below = 0#66 := by
  rw [encode, InWord.ofFields_eq_iff, InWord.below_eq_zero_iff]
  rfl

/-- CLEAR's word has `op = 11` and nothing below it (R75). -/
theorem encode_clear_eq_iff (w : InWord) : encode .clear = w ↔ w.op = 0b11#2 ∧ w.below = 0#66 := by
  rw [encode, InWord.ofFields_eq_iff, InWord.below_eq_zero_iff]
  rfl

/-! ### The decoder against the encoder -/

/-- Every word the encoder writes is read back, each on its own branch of the decoder. -/
theorem decode_encode (i : Instr) : decode (encode i) = .ok i := by
  cases i with
  | edge kind ts => simp [decode, encode]
  | tick now => simp [decode, encode]
  | ack => simp [decode, (encode_ack_eq_iff _).1 rfl]
  | clear => simp [decode, (encode_clear_eq_iff _).1 rfl]

/-- What a word with a given opcode decodes to has that word: each accepting branch of the decoder has tested every field
that the transaction does not hold as an operand. -/
theorem encode_of_decode {w : InWord} {i : Instr} (h : decode w = .ok i) : encode i = w := by
  unfold decode at h
  split at h
  · next hop =>
    split at h
    · next hrsv => cases h; exact (encode_edge_eq_iff _ _ w).2 ⟨hop, hrsv, rfl, rfl⟩
    · cases h
  · next hnot_edge =>
    split at h
    · next hop =>
      split at h
      · next hrsv =>
        split at h
        · next hkind => cases h; exact (encode_tick_eq_iff _ w).2 ⟨hop, hkind, hrsv, rfl⟩
        · cases h
      · cases h
    · next hnot_tick =>
      split at h
      · next hop =>
        split at h
        · next hbelow => cases h; exact (encode_ack_eq_iff w).2 ⟨hop, hbelow⟩
        · cases h
      · next hnot_ack =>
        have hop : w.op = 0b11#2 := by
          simpa [hnot_edge, hnot_tick, hnot_ack] using w.op_cases
        split at h
        · next hbelow => cases h; exact (encode_clear_eq_iff w).2 ⟨hop, hbelow⟩
        · cases h

/-- The decoder is the encoder's partial inverse: a word is legal as a transaction exactly when it is that transaction's
word (R75, R85). -/
theorem decode_eq_ok_iff (w : InWord) (i : Instr) : decode w = .ok i ↔ encode i = w :=
  ⟨encode_of_decode, fun h => h ▸ decode_encode i⟩

/-! ### The (match, mask) pairs -/

namespace OpcodeRow

/-! The table's rows by their fields: the mask has ones where a field is tested, and the pattern the value it is tested
for (R72, R75). -/

/-- EDGE's row tests `op` and `rsv`. -/
def edge : OpcodeRow := ⟨"EDGE", .ofFields 0b00#2 0#1 0#1 0#64, .ofFields (.allOnes 2) 0#1 (.allOnes 1) 0#64⟩

/-- TICK's row tests `op`, `kind` and `rsv`. -/
def tick : OpcodeRow := ⟨"TICK", .ofFields 0b01#2 0#1 0#1 0#64, .ofFields (.allOnes 2) (.allOnes 1) (.allOnes 1) 0#64⟩

/-- ACK's row tests every field. -/
def ack : OpcodeRow :=
  ⟨"ACK", .ofFields 0b10#2 0#1 0#1 0#64, .ofFields (.allOnes 2) (.allOnes 1) (.allOnes 1) (.allOnes 64)⟩

/-- CLEAR's row tests every field. -/
def clear : OpcodeRow :=
  ⟨"CLEAR", .ofFields 0b11#2 0#1 0#1 0#64, .ofFields (.allOnes 2) (.allOnes 1) (.allOnes 1) (.allOnes 64)⟩

/-- These are the rows of the table. -/
theorem opcodeRows_eq : opcodeRows = [edge, tick, ack, clear] := by decide

/-- A row's test, field by field (R75). -/
theorem accepts_iff (r : OpcodeRow) (w : InWord) :
    r.accepts w = true ↔ w.op &&& r.mask.op = r.pattern.op ∧ w.kindBit &&& r.mask.kindBit = r.pattern.kindBit ∧
      w.rsv &&& r.mask.rsv = r.pattern.rsv ∧ w.ts &&& r.mask.ts = r.pattern.ts := by
  have hand : r.accepts w = true ↔ w &&& r.mask = r.pattern := by simp [accepts]
  rw [hand, InWord.ext_fields_iff]
  simp only [InWord.op, InWord.kindBit, InWord.rsv, InWord.ts, BitVec.extractLsb'_and]

open InWord BitVec

theorem edge_accepts_iff (w : InWord) : edge.accepts w = true ↔ w.op = 0b00#2 ∧ w.rsv = 0#1 := by
  simp only [accepts_iff, edge, op_ofFields, kindBit_ofFields, rsv_ofFields, ts_ofFields, and_allOnes, and_zero,
    true_and, and_true]

theorem tick_accepts_iff (w : InWord) :
    tick.accepts w = true ↔ w.op = 0b01#2 ∧ w.kindBit = 0#1 ∧ w.rsv = 0#1 := by
  simp only [accepts_iff, tick, op_ofFields, kindBit_ofFields, rsv_ofFields, ts_ofFields, and_allOnes, and_zero,
    and_true]

theorem ack_accepts_iff (w : InWord) : ack.accepts w = true ↔ w.op = 0b10#2 ∧ w.below = 0#66 := by
  simp only [accepts_iff, ack, op_ofFields, kindBit_ofFields, rsv_ofFields, ts_ofFields, and_allOnes,
    below_eq_zero_iff]

theorem clear_accepts_iff (w : InWord) : clear.accepts w = true ↔ w.op = 0b11#2 ∧ w.below = 0#66 := by
  simp only [accepts_iff, clear, op_ofFields, kindBit_ofFields, rsv_ofFields, ts_ofFields, and_allOnes,
    below_eq_zero_iff]

end OpcodeRow

open OpcodeRow in
/-- The word of a transaction matches the row of its mnemonic and no other: the opcode alone rules the others out. -/
theorem rowsOf_encode (i : Instr) : (rowsOf (encode i)).map (·.mnemonic) = [i.mnemonic] := by
  have hrow : rowsOf (encode i) =
      match i with
      | .edge _ _ => [edge]
      | .tick _ => [tick]
      | .ack => [ack]
      | .clear => [clear] := by
    cases i <;> simp [rowsOf, opcodeRows_eq, edge_accepts_iff, tick_accepts_iff, ack_accepts_iff, clear_accepts_iff,
      encode, InWord.below_eq_zero_iff]
  rw [hrow]
  cases i <;> rfl

open OpcodeRow in
/-- A word of no transaction matches no row. -/
theorem rowsOf_eq_nil {w : InWord} (h : ∀ i, encode i ≠ w) : rowsOf w = [] := by
  simp only [rowsOf, opcodeRows_eq, List.filter_eq_nil_iff, List.mem_cons, List.not_mem_nil, or_false]
  rintro r (rfl | rfl | rfl | rfl) haccepts
  · obtain ⟨hop, hrsv⟩ := (edge_accepts_iff w).1 haccepts
    exact h (.edge _ _) ((encode_edge_eq_iff _ _ w).2 ⟨hop, hrsv, rfl, rfl⟩)
  · obtain ⟨hop, hkind, hrsv⟩ := (tick_accepts_iff w).1 haccepts
    exact h (.tick _) ((encode_tick_eq_iff _ w).2 ⟨hop, hkind, hrsv, rfl⟩)
  · exact h .ack ((encode_ack_eq_iff w).2 ((ack_accepts_iff w).1 haccepts))
  · exact h .clear ((encode_clear_eq_iff w).2 ((clear_accepts_iff w).1 haccepts))

/-! ### The obligations -/

/-- Settles O2: the decoder reads back what the encoder writes. -/
theorem decodeOfEncodeIsTheTransaction : Obligations.DecodeOfEncodeIsTheTransaction := by
  unfold Obligations.DecodeOfEncodeIsTheTransaction
  exact decode_encode

/-- Settles O3: every field of a legal word is an operand of its transaction or tested by the decoder. -/
theorem eachTransactionHasOneWord : Obligations.EachTransactionHasOneWord := by
  unfold Obligations.EachTransactionHasOneWord
  intro w i
  exact encode_of_decode

/-- Settles O4: a word decodes to the transaction whose word it is, and so matches that transaction's row alone. -/
theorem legalWordsAreThoseOfTheTable : Obligations.LegalWordsAreThoseOfTheTable := by
  unfold Obligations.LegalWordsAreThoseOfTheTable
  refine ⟨rfl, fun w => ⟨fun kind ts => ?_, fun now => ?_, ?_, ?_, ?_⟩⟩
  · rw [← EdgeKind.ofBit_kindBit]
    exact (decode_eq_ok_iff w _).trans (encode_edge_eq_iff kind ts w)
  · exact (decode_eq_ok_iff w _).trans (encode_tick_eq_iff now w)
  · exact (decode_eq_ok_iff w _).trans (encode_ack_eq_iff w)
  · exact (decode_eq_ok_iff w _).trans (encode_clear_eq_iff w)
  · cases hw : decode w with
    | ok i =>
      rw [← encode_of_decode hw]
      exact rowsOf_encode i
    | error why =>
      have hnone : ∀ i, encode i ≠ w := fun i hi => by simp [← hi, decode_encode] at hw
      rw [rowsOf_eq_nil hnone, List.map_nil]

/-- Settles O1: the words are closed terms, on which the decoder computes. -/
theorem writtenOutWordsDecode : Obligations.WrittenOutWordsDecode := by
  unfold Obligations.WrittenOutWordsDecode
  decide

/-- Settles O5: only the fields that are not 0 remain of the four shifts. -/
theorem traceLinesAssembleToShiftedWords : Obligations.TraceLinesAssembleToShiftedWords := by
  unfold Obligations.TraceLinesAssembleToShiftedWords
  refine ⟨fun t => ⟨?_, ?_, ?_⟩, by decide, by decide⟩
  · rw [encode, InWord.ofFields_eq_shifts]
    exact BitVec.zero_or
  · rw [encode, InWord.ofFields_eq_shifts]
    rfl
  · rw [encode, InWord.ofFields_eq_shifts]
    rfl

end Sys2Proof

namespace Sys2Proof.Machine

/-- A presented word that is no transaction's is refused by name (R76). -/
theorem step_refuses_of_not_encode {s : State} {w : InWord} {later : List Presentation}
    (hin : s.inputs = ⟨false, [w]⟩ :: later) (hw : ∀ i, encode i ≠ w) :
    ∃ why, step s = .refused (.illegalWord why) := by
  cases hdec : decode w with
  | ok i => exact absurd (encode_of_decode hdec) (hw i)
  | error why => exact ⟨why, by rw [step, takeInput_of_one_word Config.hw hin, perform_illegal hdec]⟩

/-- Settles O7: none of the three kinds of word is a transaction's, whose fields say otherwise. -/
theorem illegalWordsAreRefused : Obligations.IllegalWordsAreRefused := by
  unfold Obligations.IllegalWordsAreRefused
  intro s w later hin hillegal
  refine step_refuses_of_not_encode hin fun i hi => ?_
  change (w.op = 0b00#2 ∨ w.op = 0b01#2) ∧ w.rsv = 1#1 ∨ w.op = 0b01#2 ∧ w.kindBit = 1#1 ∨
    (w.op = 0b10#2 ∨ w.op = 0b11#2) ∧ w.below ≠ 0#66 at hillegal
  cases i with
  | edge kind ts =>
    obtain ⟨hop, hrsv, -, -⟩ := (encode_edge_eq_iff kind ts w).1 hi
    simp [hop, hrsv] at hillegal
  | tick now =>
    obtain ⟨hop, hkind, hrsv, -⟩ := (encode_tick_eq_iff now w).1 hi
    simp [hop, hkind, hrsv] at hillegal
  | ack =>
    obtain ⟨hop, hbelow⟩ := (encode_ack_eq_iff w).1 hi
    simp [hop, hbelow] at hillegal
  | clear =>
    obtain ⟨hop, hbelow⟩ := (encode_clear_eq_iff w).1 hi
    simp [hop, hbelow] at hillegal

end Sys2Proof.Machine
end

section
/-! The statements on the pseudo-instruction NECFRAME (30_encoding.md R84): its edges decode to its four bytes, and a block
that captures them accepts the frame. -/

namespace Sys2Proof.Machine

/-! ### Bits and bytes in a payload -/

/-- Shifting a list of bits in puts the last at bit 0, each earlier one a bit higher, and what was there before above
them all (R131). -/
theorem foldl_shiftIn_getLsbD (bs : List Bool) (bits : Payload) (i : Nat) (h : i < 32) :
    (bs.foldl shiftIn bits).getLsbD i = (bs.reverse[i]?).getD (bits.getLsbD (i - bs.length)) := by
  induction bs using List.reverseRecOn generalizing i with
  | nil => simp
  | append_singleton bs b ih =>
    rw [List.foldl_concat, shiftIn_getLsbD _ _ _ h, List.reverse_concat, List.length_append, List.length_singleton]
    cases i with
    | zero => simp
    | succ i => simp [ih i (by omega)]

theorem byteBits_length (b : Byte) : (byteBits b).length = 8 := rfl

/-- From its end, a byte's list of bits holds bit `i` at index `i` (R84). -/
theorem byteBits_reverse_getElem? (b : Byte) (i : Nat) :
    (byteBits b).reverse[i]? = if i < 8 then some (b.getLsbD i) else none := by
  by_cases h : i < 8
  · rw [if_pos h]
    interval_cases i <;> rfl
  · rw [if_neg h, List.getElem?_eq_none (by rw [List.length_reverse, byteBits_length]; omega)]

/-- The bits of four bytes in sending order are the payload of the four bytes, the first most significant (R84, R53). -/
theorem payloadOf_byteBits (b0 b1 b2 b3 : Byte) :
    payloadOf (byteBits b0 ++ byteBits b1 ++ byteBits b2 ++ byteBits b3) = b0 ++ b1 ++ b2 ++ b3 := by
  apply BitVec.eq_of_getLsbD_eq
  intro i hi
  rw [payloadOf, foldl_shiftIn_getLsbD _ _ _ hi]
  simp only [List.reverse_append, List.getElem?_append, byteBits_reverse_getElem?, List.length_reverse,
    byteBits_length, BitVec.getLsbD_append]
  split
  · rfl
  · split
    · rfl
    · split
      · rfl
      · rw [if_pos (by omega), Option.getD_some]

/-! ### FrameDecoder on edges within the windows -/

/-- A preamble with a good start pulse and a new frame's start space leaves the rest to the loop over the periods (R127,
R128). -/
theorem frameDecode_newPreamble (t0 pulse space : Timestamp) (rest : List EdgeEvent)
    (hpulse : inWin Config.hw pulse Config.hw.tStartPulse = true)
    (hspace : inWin Config.hw space Config.hw.tSpaceNew = true) :
    frameDecode Config.hw (preambleEdges t0 pulse space ++ rest) =
      decodeBits Config.hw rest (t0 + pulse + space) 0 0 := by
  have hnot_repeat : ¬ inWin Config.hw space Config.hw.tSpaceRepeat = true := by
    rw [inWin_hw_spaceNew] at hspace
    rw [inWin_hw_spaceRepeat]
    omega
  rw [preambleEdges, List.cons_append, List.cons_append, List.cons_append, List.nil_append, frameDecode]
  simp only [tsSub_hw, add_sub_cancel_left, hpulse, hspace]
  rw [if_neg (by decide), if_neg (by decide), if_neg hnot_repeat, if_neg (by decide)]

/-- Periods that stand for bits are decoded to those bits, shifted in in order, while the frame has room for them
(R129 to R131). -/
theorem decodeBits_periodEdges (bs : List Bool) (ds : List Timestamp) (f : Timestamp) (bits : Payload) (cnt : Nat)
    (hroom : cnt + bs.length ≤ 32) (hds : ds.map (classifyPeriod Config.hw) = bs.map some) :
    decodeBits Config.hw (periodEdges Config.hw f ds) f bits cnt = .newFrame (bs.foldl shiftIn bits) (cnt + bs.length) := by
  induction bs generalizing ds f bits cnt with
  | nil =>
    obtain rfl : ds = [] := by simpa using hds
    rw [periodEdges, decodeBits_rising, decodeBits_nil]
    rfl
  | cons b bs ih =>
    obtain ⟨d, ds, rfl, hd, hds⟩ := List.map_eq_cons_iff.1 hds
    rw [List.length_cons] at hroom
    have hcnt : cnt ≠ Config.hw.frameBits := by rw [Config.hw_frameBits]; omega
    have hperiod : classifyPeriod Config.hw (tsSub Config.hw (f + d) f) = some b := by
      rw [tsSub_hw, add_sub_cancel_left, hd]
    rw [periodEdges, decodeBits_rising, decodeBits_bit _ _ _ _ _ _ b hcnt hperiod, ih _ _ _ _ (by omega) hds,
      List.length_cons, List.foldl_cons, Nat.add_right_comm, Nat.add_assoc cnt]

/-- R84's period of a bit is classified as that bit (R130). -/
theorem classifyPeriod_bitPeriod (b : Bool) : classifyPeriod Config.hw (bitPeriod Config.hw b) = some b := by
  cases b <;> decide

/-- The edges of any frame of at most 32 bits decode to its bits (R84, R131). -/
theorem frameDecode_frameEdges (t0 : Timestamp) (bs : List Bool) (h : bs.length ≤ 32) :
    frameDecode Config.hw (frameEdges Config.hw t0 bs) = .newFrame (payloadOf bs) bs.length := by
  have hds : (bs.map (bitPeriod Config.hw)).map (classifyPeriod Config.hw) = bs.map some := by
    simp [classifyPeriod_bitPeriod]
  rw [frameEdges, frameDecode_newPreamble _ _ _ _ (by decide) (by decide),
    decodeBits_periodEdges bs _ _ _ _ (by omega) hds, Nat.zero_add, payloadOf]

/-- The edges of NECFRAME decode to its four bytes (R84, R53). -/
theorem frameDecode_necFrameEdges (t0 : Timestamp) (b0 b1 b2 b3 : Byte) :
    frameDecode Config.hw (necFrameEdges Config.hw t0 b0 b1 b2 b3) = .newFrame (b0 ++ b1 ++ b2 ++ b3) 32 := by
  rw [necFrameEdges, frameDecode_frameEdges _ _ (by simp [byteBits_length]), payloadOf_byteBits]
  simp [byteBits_length]

/-! ### Capturing edges -/

/-- An EDGE that finds room appends its edge (R101). -/
theorem exec_edge_of_room (e : EdgeEvent) {s : State} (h : s.log.length < 100) :
    exec e.toInstr s = .next (s.logAppend e.kind e.ts).noEvent := by
  have hexec : exec e.toInstr s = execEdge e.kind e.ts s := rfl
  rw [hexec, execEdge_eq, if_pos h]

/-- Edges that fit are stored in the order presented, and nothing else but `last_ts` and the event changes (R101, R103). -/
theorem execAll_edges (es : List EdgeEvent) (last : EdgeEvent) (s : State)
    (hroom : s.log.length + (es ++ [last]).length ≤ 100) :
    execAll ((es ++ [last]).map EdgeEvent.toInstr) s =
      .next { s with log := s.log ++ es ++ [last], lastTs := last.ts, event := none } := by
  rw [List.length_append, List.length_singleton] at hroom
  induction es generalizing s with
  | nil =>
    rw [List.nil_append, List.map_singleton, execAll, exec_edge_of_room last (by omega), List.append_nil]
    rfl
  | cons e es ih =>
    rw [List.length_cons] at hroom
    rw [List.cons_append, List.map_cons, execAll, exec_edge_of_room e (by omega)]
    refine (ih _ ?_).trans ?_
    · simp only [State.noEvent_log, State.logAppend_log, List.length_append, List.length_singleton]
      omega
    · simp [State.noEvent, State.logAppend]

/-- After the preamble there are two edges for each period and the rising edge of the final burst (R84). -/
theorem periodEdges_length (c : Config) (f : Timestamp) (ds : List Timestamp) :
    (periodEdges c f ds).length = 2 * ds.length + 1 := by
  induction ds generalizing f with
  | nil => rfl
  | cons d ds ih => rw [periodEdges, List.length_cons, List.length_cons, ih, List.length_cons]; omega

/-- NECFRAME expands to 68 edges (R84). -/
theorem necFrameEdges_length (c : Config) (t0 : Timestamp) (b0 b1 b2 b3 : Byte) :
    (necFrameEdges c t0 b0 b1 b2 b3).length = 68 := by
  simp [necFrameEdges, frameEdges, preambleEdges, periodEdges_length, byteBits_length]

/-- An empty log captures a whole NECFRAME (R84, R101). -/
theorem execAll_necFrame (t0 : Timestamp) (b0 b1 b2 b3 : Byte) {s : State} (hlog : s.log = []) :
    ∃ t, execAll (necFrame Config.hw t0 b0 b1 b2 b3) s = .next t ∧
      t.log = necFrameEdges Config.hw t0 b0 b1 b2 b3 := by
  have hlen := necFrameEdges_length Config.hw t0 b0 b1 b2 b3
  obtain ⟨es, last, hes⟩ : ∃ es last, necFrameEdges Config.hw t0 b0 b1 b2 b3 = es ++ [last] :=
    (List.eq_nil_or_concat' _).resolve_left (List.ne_nil_of_length_pos (by omega))
  rw [necFrame, hes]
  rw [hes] at hlen
  exact ⟨_, execAll_edges es last s (by rw [hlog, hlen]; decide), by rw [hlog, List.nil_append]⟩

/-! ### Accepting a frame -/

/-- A byte and its bitwise inverse pass the checksum (R162). -/
theorem complementOk_not (b : Byte) : complementOk b (~~~b) = true := by
  rw [complementOk_iff_xor, ← BitVec.xor_allOnes, ← BitVec.xor_assoc, BitVec.xor_self, BitVec.zero_xor]
  rfl

section
variable (b0 b1 b2 b3 : Byte)

open BitVec

/-! A payload of four bytes splits into them (R161). -/

theorem address_append : Payload.address (b0 ++ b1 ++ b2 ++ b3) = b0 := by
  rw [Payload.address, extractLsb'_append_eq_of_le (by decide), extractLsb'_append_eq_of_le (by decide),
    extractLsb'_append_eq_of_le (by decide)]
  exact extractLsb'_eq_self

theorem addressComplement_append : Payload.addressComplement (b0 ++ b1 ++ b2 ++ b3) = b1 := by
  rw [Payload.addressComplement, extractLsb'_append_eq_of_le (by decide), extractLsb'_append_eq_of_le (by decide)]
  exact extractLsb'_append_eq_right

theorem command_append : Payload.command (b0 ++ b1 ++ b2 ++ b3) = b2 := by
  rw [Payload.command, extractLsb'_append_eq_of_le (by decide)]
  exact extractLsb'_append_eq_right

theorem commandComplement_append : Payload.commandComplement (b0 ++ b1 ++ b2 ++ b3) = b3 :=
  extractLsb'_append_eq_right

end

/-- An address sent with its bitwise inverse passes its checksum (R162). -/
theorem addressValid_not (a b2 b3 : Byte) : addressValid (a ++ ~~~a ++ b2 ++ b3) = true := by
  rw [addressValid, address_append, addressComplement_append, complementOk_not]

/-- A command sent with its bitwise inverse passes its checksum (R162). -/
theorem commandValid_not (b0 b1 c : Byte) : commandValid (b0 ++ b1 ++ c ++ ~~~c) = true := by
  rw [commandValid, command_append, commandComplement_append, complementOk_not]

/-- A full frame whose flags both hold is accepted under either short-frame policy (R164). -/
theorem validateFrame_of_valid (c : Config) {bits : Payload} {n : Nat} (s : State) (hn : c.frameBits ≤ n)
    (haddr : addressValid bits = true) (hcmd : commandValid bits = true) :
    validateFrame c bits n s = acceptFrame bits n s := by
  rw [validateFrame, if_neg (fun h => Nat.not_lt.2 hn h.1), if_pos (by rw [haddr, hcmd]; rfl)]

/-- A TICK that finds a whole valid frame in an idle log accepts it (R121, R122, R166). -/
theorem exec_tick_accepts (now : Timestamp) {s : State} {bits : Payload} (hlog : s.log ≠ [])
    (hidle : 10000 < (now - s.lastTs).toNat) (hframe : frameDecode Config.hw s.log = .newFrame bits 32)
    (haddr : addressValid bits = true) (hcmd : commandValid bits = true) :
    exec (.tick now) s = .next (acceptFrame bits 32 s.logClear) := by
  rw [exec_tick_of_log_ne_nil now hlog, if_pos hidle, decodeCycle_eq, hframe, conclude,
    validateFrame_of_valid Config.hw _ (Nat.le_refl 32) haddr hcmd]

/-! ### The obligations -/

/-- Settles O33: the bits of the four bytes, each sent as its own period, make up the payload. -/
theorem necFrameRoundTrip : Obligations.NecFrameRoundTrip := by
  unfold Obligations.NecFrameRoundTrip
  exact frameDecode_necFrameEdges

/-- Settles O41: the log captures the frame's edges, which decode to the four bytes; they pass both checksums. -/
theorem capturedNecFrameIsAccepted : Obligations.CapturedNecFrameIsAccepted := by
  unfold Obligations.CapturedNecFrameIsAccepted
  intro s t0 now a c hlog
  obtain ⟨t, hcapture, hedges⟩ := execAll_necFrame t0 a (~~~a) c (~~~c) hlog
  refine ⟨t, hcapture, fun hidle => ?_⟩
  have hframe : frameDecode Config.hw t.log = .newFrame (a ++ ~~~a ++ c ++ ~~~c) 32 := by
    rw [hedges]
    exact frameDecode_necFrameEdges t0 a (~~~a) c (~~~c)
  have hne : t.log ≠ [] := by
    intro hnil
    rw [hnil] at hframe
    cases hframe
  refine ⟨_, exec_tick_accepts now hne hidle hframe (addressValid_not _ _ _) (commandValid_not _ _ _), rfl, ?_, ?_, ?_⟩
  · rw [acceptFrame, State.emit_cache, State.sinkWrite_cache, State.cacheWrite_cache, address_append, command_append]
  · rw [acceptFrame, State.emit_sink, State.sinkWrite_sink, command_append]
  · rw [acceptFrame, State.emit_event, Option.map_some, frameDiag, address_append, command_append]

end Sys2Proof.Machine
end

section
/-! The statements of 30_encoding.md section 2: status codes, the diagnostic word and the output ports (R79 to R82). -/

namespace Sys2Proof.Machine

/-- A status is told by its code (R81). -/
theorem Status.code_injective : Function.Injective Status.code := by
  intro st st' h
  cases st <;> cases st' <;> simp_all [Status.code]

/-! ### The fields of the diagnostic word (R80) -/

namespace Diag

open BitVec

variable (d : Diag)

theorem word_status : d.word.extractLsb' 0 4 = d.status.code :=
  extractLsb'_append_eq_right

theorem word_isRepeat : d.word.getLsbD 4 = d.isRepeat := by
  simp only [word, getLsbD_append]
  simp

theorem word_addressValid : d.word.getLsbD 5 = d.addressValid := by
  simp only [word, getLsbD_append]
  simp

theorem word_commandValid : d.word.getLsbD 6 = d.commandValid := by
  simp only [word, getLsbD_append]
  simp

theorem word_bit7 : d.word.getLsbD 7 = false := by
  simp only [word, getLsbD_append]
  simp

theorem word_address : d.word.extractLsb' 8 8 = d.address := by
  rw [word]
  repeat rw [extractLsb'_append_eq_of_le (by decide)]
  exact extractLsb'_append_eq_right

theorem word_command : d.word.extractLsb' 16 8 = d.command := by
  rw [word]
  repeat rw [extractLsb'_append_eq_of_le (by decide)]
  exact extractLsb'_append_eq_right

theorem word_bitCount : d.word.extractLsb' 24 8 = d.bitCount := by
  rw [word]
  repeat rw [extractLsb'_append_eq_of_le (by decide)]
  exact extractLsb'_append_eq_right

theorem word_bits : d.word.extractLsb' 32 32 = d.bits := by
  rw [word]
  repeat rw [extractLsb'_append_eq_of_le (by decide)]
  exact extractLsb'_eq_self

end Diag

/-! ### The ports (R79) -/

/-- In a state with an event the ports show it. -/
theorem ports_of_event {s : State} {d : Diag} (h : s.event = some d) : s.ports.diagValid = 1 ∧ s.ports.diag = d.word := by
  rw [State.ports, h]
  exact ⟨rfl, rfl⟩

/-- In a state without an event both diagnostic ports are 0. -/
theorem ports_of_no_event {s : State} (h : s.event = none) : s.ports.diagValid = 0 ∧ s.ports.diag = 0 := by
  rw [State.ports, h]
  exact ⟨rfl, rfl⟩

/-- A log within the capacity has a length that fits the seven wires. -/
theorem ports_logLen_toNat {s : State} (h : s.log.length ≤ 100) : s.ports.logLen.toNat = s.log.length := by
  rw [State.ports, State.logLen, BitVec.toNat_ofNat]
  omega

/-! ### The obligations -/

/-- Settles O46, field by field. -/
theorem diagnosticWordHoldsEveryField : Obligations.DiagnosticWordHoldsEveryField := by
  unfold Obligations.DiagnosticWordHoldsEveryField
  exact fun d => ⟨d.word_status, d.word_isRepeat, d.word_addressValid, d.word_commandValid, d.word_bit7, d.word_address,
    d.word_command, d.word_bitCount, d.word_bits⟩

/-- Settles O47, port by port. -/
theorem portsShowRegistersAndTheEvent : Obligations.PortsShowRegistersAndTheEvent := by
  unfold Obligations.PortsShowRegistersAndTheEvent
  exact fun s => ⟨rfl, BitVec.ofBool_eq_iff_eq (b' := true), BitVec.ofBool_eq_iff_eq (b' := true), ports_logLen_toNat,
    ports_of_no_event, fun _ => ports_of_event⟩

/-- Settles O45: nine codes from 1 to 9, one for each status. -/
theorem statusCodesAreThoseOfTheTable : Obligations.StatusCodesAreThoseOfTheTable := by
  unfold Obligations.StatusCodesAreThoseOfTheTable
  exact ⟨rfl, fun st => by cases st <;> decide, Status.code_injective⟩

end Sys2Proof.Machine
end

section
/-! The statements of 40_capture.md: EDGE with room and without (R101, R102), and runs of edges (R103). -/

namespace Sys2Proof.Machine

/-- An EDGE that finds the log full discards it, with the new edge, and emits BUFFER_OVERFLOW (R102). -/
theorem exec_edge_of_full (e : EdgeEvent) {s : State} (h : 100 ≤ s.log.length) :
    exec e.toInstr s = .next (s.logClear.emit { status := .bufferOverflow }) := by
  have hexec : exec e.toInstr s = execEdge e.kind e.ts s := rfl
  rw [hexec, execEdge_eq, if_neg (Nat.not_lt.2 h)]

/-- A run whose first part completes goes on from the state that part leads to. -/
theorem execAll_append_of_next {is : List Instr} (js : List Instr) {s t : State} (h : execAll is s = .next t) :
    execAll (is ++ js) s = execAll js t := by
  induction is generalizing s with
  | nil => cases h; rfl
  | cons i is ih =>
    obtain ⟨s', hi, -⟩ := exec_inputs i s s.inputs s.draws
    rw [execAll, hi] at h
    rw [List.cons_append, execAll, hi]
    exact ih h

/-! ### The obligations -/

/-- Settles O14: the whole next state is known, and it shows a diagnostic word whose fields but the status are 0. -/
theorem overflowDiscardsTheEdgeWithTheLog : Obligations.OverflowDiscardsTheEdgeWithTheLog := by
  unfold Obligations.OverflowDiscardsTheEdgeWithTheLog
  intro kind ts s hfull
  obtain ⟨hvalid, hword⟩ := ports_of_event (s.logClear.emit_event { status := .bufferOverflow })
  exact ⟨_, exec_edge_of_full ⟨kind, ts⟩ hfull, rfl, rfl, rfl, rfl, rfl, hvalid, hword.trans (by decide)⟩

/-- Settles O15, by induction on the edges before the last. -/
theorem edgesThatFitAreStoredInOrder : Obligations.EdgesThatFitAreStoredInOrder := by
  unfold Obligations.EdgesThatFitAreStoredInOrder
  exact fun s es last => execAll_edges es last s

/-- Settles O16: the first 100 edges fill the log, the 101st finds it full, and the 102nd finds it empty. -/
theorem oneHundredAndOneEdgesOverflow : Obligations.OneHundredAndOneEdgesOverflow := by
  unfold Obligations.OneHundredAndOneEdgesOverflow
  intro s es e101 e102 hlog hlen
  obtain ⟨front, e100, rfl⟩ : ∃ front e100, es = front ++ [e100] :=
    (List.eq_nil_or_concat' es).resolve_left (List.ne_nil_of_length_pos (by omega))
  have hfill := execAll_edges front e100 s (by rw [hlog, hlen]; decide)
  rw [hlog, List.nil_append] at hfill
  have hoverflow := execAll_append_of_next [e101.toInstr] hfill
  rw [execAll, exec_edge_of_full e101 hlen.ge] at hoverflow
  rw [List.map_append, List.map_singleton, List.getLast?_concat]
  exact ⟨_, _, hoverflow, rfl, rfl, rfl, rfl, rfl, exec_edge_of_room e102 (Nat.succ_pos 99), rfl, rfl⟩

/-- Settles O13: either the log has room or it is full. -/
theorem edgeAppendsOrDiscardsTheLog : Obligations.EdgeAppendsOrDiscardsTheLog := by
  unfold Obligations.EdgeAppendsOrDiscardsTheLog
  intro kind ts s
  by_cases hroom : s.log.length < 100
  · rw [if_pos hroom]
    exact exec_edge_of_room ⟨kind, ts⟩ hroom
  · rw [if_neg hroom]
    exact exec_edge_of_full ⟨kind, ts⟩ (Nat.not_lt.1 hroom)

end Sys2Proof.Machine
end

section
/-! The statements of 41_idle_decode.md: the preamble and the tolerance windows (R126 to R128, R134, R135), the decoder's
loop as a reading of the list of falling-to-falling periods (R129 to R133), and TICK with its decode cycle (R120 to
R122). -/

namespace Sys2Proof.Machine

/-! ### The preamble -/

/-- What FrameDecoder does with a log that starts falling, rising, falling (R127, R128). -/
theorem frameDecode_falling_rising_falling (t0 t1 t2 : Timestamp) (rest : List EdgeEvent) :
    frameDecode Config.hw (⟨.falling, t0⟩ :: ⟨.rising, t1⟩ :: ⟨.falling, t2⟩ :: rest) =
      if 9101 ≤ (t1 - t0).toNat ∧ (t1 - t0).toNat ≤ 9499 then
        if 2051 ≤ (t2 - t1).toNat ∧ (t2 - t1).toNat ≤ 2449 then .repeatFrame
        else if 4301 ≤ (t2 - t1).toNat ∧ (t2 - t1).toNat ≤ 4699 then decodeBits Config.hw rest t2 0 0
        else .invalidPreamble
      else .invalidPreamble := by
  simp only [frameDecode, tsSub_hw, inWin_hw_startPulse, inWin_hw_spaceRepeat, inWin_hw_spaceNew, ite_not, and_self,
    if_true]

/-- A preamble with a good start pulse and a repeat frame's start space is a repeat frame, whatever follows (R128). -/
theorem frameDecode_repeatPreamble (t0 pulse space : Timestamp) (rest : List EdgeEvent)
    (hpulse : 9101 ≤ pulse.toNat ∧ pulse.toNat ≤ 9499) (hspace : 2051 ≤ space.toNat ∧ space.toNat ≤ 2449) :
    frameDecode Config.hw (preambleEdges t0 pulse space ++ rest) = .repeatFrame := by
  refine (frameDecode_falling_rising_falling t0 (t0 + pulse) (t0 + pulse + space) rest).trans ?_
  rw [add_sub_cancel_left, add_sub_cancel_left, if_pos hpulse, if_pos hspace]

/-- A log that decodes to a new frame has a preamble that leaves to the loop whatever entries come after it. -/
theorem frameDecode_eq_newFrame (c : Config) {es : List EdgeEvent} {bits : Payload} {n : Nat}
    (h : frameDecode c es = .newFrame bits n) :
    ∃ e0 e1 e2 rest, es = e0 :: e1 :: e2 :: rest ∧
      ∀ rest', frameDecode c (e0 :: e1 :: e2 :: rest') = decodeBits c rest' e2.ts 0 0 := by
  rcases frameDecode_cases c es with ⟨-, hes⟩ | ⟨e0, e1, e2, rest, rfl, hes⟩
  · rw [hes] at h; cases h
  · rcases hes with ⟨-, hes⟩ | ⟨-, -, hes⟩ | ⟨-, -, -, hes⟩ | ⟨⟨hkinds, hpulse⟩, hrepeat, hnew, -⟩
    · rw [hes] at h; cases h
    · rw [hes] at h; cases h
    · rw [hes] at h; cases h
    · exact ⟨e0, e1, e2, rest, rfl, fun rest' => by simp [frameDecode, hkinds, hpulse, hrepeat, hnew]⟩

/-! ### Periods -/

/-- On this hardware a period stands for the bit of the range it is in (R130). -/
theorem classifyPeriod_hw (d : Timestamp) : classifyPeriod Config.hw d = periodBit d := by
  simp only [classifyPeriod, periodBit, inWin_hw_bit1, inWin_hw_bit0]

/-- The edges made from a list of periods have these periods between their falling entries (R84, R129). -/
theorem fallingPeriods_periodEdges (c : Config) (f : Timestamp) (ds : List Timestamp) :
    fallingPeriods f (periodEdges c f ds) = ds := by
  induction ds generalizing f with
  | nil => rfl
  | cons d ds ih => simp only [periodEdges, fallingPeriods, sub64, add_sub_cancel_left, ih]

/-- The falling entries alone make the periods (R129). -/
theorem fallingPeriods_filter (prev : Timestamp) (es : List EdgeEvent) :
    fallingPeriods prev (es.filter (fun e => e.kind == .falling)) = fallingPeriods prev es := by
  induction es generalizing prev with
  | nil => rfl
  | cons e es ih =>
    obtain ⟨kind, ts⟩ := e
    cases kind with
    | rising => exact ih prev
    | falling => exact congrArg (sub64 ts prev :: ·) (ih ts)

/-- Later entries add periods after those there are. -/
theorem fallingPeriods_prefix_append (prev : Timestamp) (es more : List EdgeEvent) :
    fallingPeriods prev es <+: fallingPeriods prev (es ++ more) := by
  induction es generalizing prev with
  | nil => exact List.nil_prefix
  | cons e es ih =>
    obtain ⟨kind, ts⟩ := e
    cases kind with
    | rising => exact ih prev
    | falling => exact (List.prefix_cons_inj (sub64 ts prev)).2 (ih ts)

/-! ### The loop over the periods -/

/-- What the rules make of the periods `ds` still to be read, after `cnt` bits accumulated in `bits`: a frame of all the
bits in order, or an abort when a period is in neither range (R130, R131, R133). -/
def readPeriods (bits : Payload) (cnt : Nat) (ds : List Timestamp) : DecodeResult :=
  if ds.any (fun d => periodBit d == none) then .invalidBitTiming
  else .newFrame ((ds.filterMap periodBit).foldl shiftIn bits) (cnt + ds.length)

theorem readPeriods_nil (bits : Payload) (cnt : Nat) : readPeriods bits cnt [] = .newFrame bits cnt := rfl

theorem readPeriods_cons_of_bit (bits : Payload) (cnt : Nat) {d : Timestamp} (ds : List Timestamp) {b : Bool}
    (hd : periodBit d = some b) : readPeriods bits cnt (d :: ds) = readPeriods (shiftIn bits b) (cnt + 1) ds := by
  simp [readPeriods, hd, Nat.add_assoc, Nat.add_comm 1]

theorem readPeriods_of_bad (bits : Payload) (cnt : Nat) {d : Timestamp} {ds : List Timestamp} (hmem : d ∈ ds)
    (hd : periodBit d = none) : readPeriods bits cnt ds = .invalidBitTiming :=
  if_pos (List.any_eq_true.2 ⟨d, hmem, by rw [hd]; rfl⟩)

/-- Periods that stand for bits give a frame of these bits. -/
theorem readPeriods_of_bits (bits : Payload) (cnt : Nat) {ds : List Timestamp} {bs : List Bool}
    (h : ds.map periodBit = bs.map some) :
    readPeriods bits cnt ds = .newFrame (bs.foldl shiftIn bits) (cnt + bs.length) := by
  induction bs generalizing ds bits cnt with
  | nil =>
    obtain rfl : ds = [] := by simpa using h
    rfl
  | cons b bs ih =>
    obtain ⟨d, ds, rfl, hd, hds⟩ := List.map_eq_cons_iff.1 h
    rw [readPeriods_cons_of_bit _ _ _ hd, ih _ _ hds, List.foldl_cons, List.length_cons, Nat.add_assoc, Nat.add_comm 1]

/-- A frame that is read has a bit for each period. -/
theorem readPeriods_eq_newFrame {bits bits' : Payload} {cnt n : Nat} {ds : List Timestamp}
    (h : readPeriods bits cnt ds = .newFrame bits' n) :
    bits' = (ds.filterMap periodBit).foldl shiftIn bits ∧ n = cnt + ds.length := by
  unfold readPeriods at h
  split at h
  · cases h
  · cases h; exact ⟨rfl, rfl⟩

/-- The loop reads the periods there is still room for (R129 to R133). -/
theorem decodeBits_eq_readPeriods (es : List EdgeEvent) (prev : Timestamp) (bits : Payload) (cnt : Nat) (hcnt : cnt ≤ 32) :
    decodeBits Config.hw es prev bits cnt = readPeriods bits cnt ((fallingPeriods prev es).take (32 - cnt)) := by
  induction es generalizing prev bits cnt with
  | nil => rw [decodeBits_nil, fallingPeriods, List.take_nil, readPeriods_nil]
  | cons e es ih =>
    obtain ⟨kind, ts⟩ := e
    cases kind with
    | rising =>
      rw [decodeBits_rising]
      exact ih prev bits cnt hcnt
    | falling =>
      have hperiod : classifyPeriod Config.hw (tsSub Config.hw ts prev) = periodBit (sub64 ts prev) := by
        rw [tsSub_hw, classifyPeriod_hw]
      rcases Nat.eq_or_lt_of_le hcnt with rfl | hlt
      · exact decodeBits_full Config.hw _ _ _
      · have hroom : 32 - cnt = 32 - (cnt + 1) + 1 := by omega
        rw [fallingPeriods, hroom, List.take_succ_cons]
        cases hbit : periodBit (sub64 ts prev) with
        | none =>
          rw [readPeriods_of_bad _ _ List.mem_cons_self hbit]
          exact decodeBits_bad _ _ _ _ _ _ hlt.ne (hperiod.trans hbit)
        | some b =>
          rw [readPeriods_cons_of_bit _ _ _ hbit, ← ih _ _ _ hlt]
          exact decodeBits_bit _ _ _ _ _ _ b hlt.ne (hperiod.trans hbit)

/-- From the end of the preamble on, the loop reads the first 32 periods (R132). -/
theorem decodeBits_start (es : List EdgeEvent) (prev : Timestamp) :
    decodeBits Config.hw es prev 0 0 = readPeriods 0 0 ((fallingPeriods prev es).take 32) :=
  decodeBits_eq_readPeriods es prev 0 0 (Nat.zero_le 32)

/-- After a new frame's preamble, edges made from a list of periods decode to what its first 32 read as (R127 to R133). -/
theorem frameDecode_newPreamble_periodEdges (t0 pulse space : Timestamp) (ds : List Timestamp)
    (hpulse : 9101 ≤ pulse.toNat ∧ pulse.toNat ≤ 9499) (hspace : 4301 ≤ space.toNat ∧ space.toNat ≤ 4699) :
    frameDecode Config.hw (preambleEdges t0 pulse space ++ periodEdges Config.hw (t0 + pulse + space) ds) =
      readPeriods 0 0 (ds.take 32) := by
  rw [frameDecode_newPreamble _ _ _ _ ((inWin_hw_startPulse pulse).2 hpulse) ((inWin_hw_spaceNew space).2 hspace),
    decodeBits_start, fallingPeriods_periodEdges]

/-- A payload has no bit at or above the count of its bits (R131). -/
theorem payloadOf_toNat_lt (bs : List Bool) : (payloadOf bs).toNat < 2 ^ bs.length := by
  induction bs using List.reverseRecOn with
  | nil => decide
  | append_singleton bs b ih =>
    have hb := b.toNat_lt
    rw [payloadOf, List.foldl_concat, shiftIn_toNat, List.length_append, List.length_singleton, Nat.pow_succ]
    rw [payloadOf] at ih
    exact (Nat.mod_le _ _).trans_lt (by omega)

/-! ### TICK and its decode cycle -/

/-- A TICK on an idle log concludes what the log decodes to, with the log cleared (R121, R122). -/
theorem exec_tick_of_idle {now : Timestamp} {s : State} (hlog : s.log ≠ []) (hidle : 10000 < (now - s.lastTs).toNat) :
    exec (.tick now) s = .next (conclude Config.hw (frameDecode Config.hw s.log) s.logClear) := by
  rw [exec_tick_of_log_ne_nil now hlog, if_pos hidle, decodeCycle_eq]

/-- A TICK on an empty log only ends the event (R121). -/
theorem exec_tick_of_log_nil (now : Timestamp) {s : State} (hlog : s.log = []) :
    exec (.tick now) s = .next s.noEvent := by
  have hexec : exec (.tick now) s = execTick now s := rfl
  rw [hexec, execTick_eq, if_neg (fun h => h.1 hlog)]

/-- `Accepted` is status ACCEPTED or REPEAT (R122). -/
theorem Status.isAccepted_iff (st : Status) : st.isAccepted = true ↔ st = .accepted ∨ st = .repeated := by
  cases st <;> decide

/-- A decode cycle writes CommandSink only for ACCEPTED and REPEAT, and RepeatCache only for ACCEPTED (R173). -/
theorem conclude_keeps (c : Config) (r : DecodeResult) (s : State) {d : Diag} (hd : (conclude c r s).event = some d) :
    (d.status ≠ .accepted → (conclude c r s).cache = s.cache) ∧
      (d.status ≠ .accepted → d.status ≠ .repeated → (conclude c r s).sink = s.sink) := by
  rcases conclude_cases c r s with ⟨bits, n, -, -, -, -, h⟩ | ⟨-, -, h⟩ | ⟨d', -, -, h⟩
  · rw [h] at hd ⊢
    cases hd
    exact ⟨fun hne => absurd rfl hne, fun hne => absurd rfl hne⟩
  · rw [h] at hd ⊢
    cases hd
    exact ⟨fun _ => rfl, fun _ hne => absurd rfl hne⟩
  · rw [h]
    exact ⟨fun _ => rfl, fun _ _ => rfl⟩

/-- A repeat frame with a command in the cache replays it (R170). -/
theorem repeatFrame_of_valid {s : State} (h : s.cache.valid = true) :
    repeatFrame s = (s.sinkWrite s.cache.cmd true).emit
      { status := .repeated, isRepeat := true, address := s.cache.addr, command := s.cache.cmd } := by
  rw [repeatFrame, if_pos h]

/-- A repeat frame with an empty cache writes nothing (R170). -/
theorem repeatFrame_of_empty {s : State} (h : s.cache.valid = false) :
    repeatFrame s = s.emit { status := .repeatEmpty, isRepeat := true } := by
  rw [repeatFrame, h, if_neg Bool.false_ne_true]

/-- A repeat frame leaves the log and RepeatCache as they are (R170). -/
theorem repeatFrame_log_cache (s : State) : (repeatFrame s).log = s.log ∧ (repeatFrame s).cache = s.cache := by
  cases h : s.cache.valid with
  | true => rw [repeatFrame_of_valid h]; exact ⟨rfl, rfl⟩
  | false => rw [repeatFrame_of_empty h]; exact ⟨rfl, rfl⟩

/-! ### The obligations -/

/-- Settles O31: the periods of the edges are the list, and each stands for its bit. -/
theorem framesWithinTheWindowsDecode : Obligations.FramesWithinTheWindowsDecode := by
  unfold Obligations.FramesWithinTheWindowsDecode
  intro t0 pulse space ds bs hp hp' hs hs' hlen hbits
  rw [frameDecode_newPreamble_periodEdges t0 pulse space ds ⟨hp, hp'⟩ ⟨hs, hs'⟩, List.take_of_length_le hlen,
    readPeriods_of_bits 0 0 hbits, Nat.zero_add, payloadOf]

/-- Settles O32: the bad period is among the first 32. -/
theorem oneBadPeriodDiscardsTheFrame : Obligations.OneBadPeriodDiscardsTheFrame := by
  unfold Obligations.OneBadPeriodDiscardsTheFrame
  intro t0 pulse space bad ds after hp hp' hs hs' hlen hbad
  have hmem : bad ∈ (ds ++ bad :: after).take 32 := by
    obtain ⟨k, hk⟩ : ∃ k, 32 - ds.length = k + 1 := ⟨31 - ds.length, by omega⟩
    rw [List.take_append, hk, List.take_succ_cons]
    exact List.mem_append_right _ List.mem_cons_self
  rw [frameDecode_newPreamble_periodEdges t0 pulse space _ ⟨hp, hp'⟩ ⟨hs, hs'⟩, readPeriods_of_bad 0 0 hmem hbad]

/-- Settles O27: the loop started with no bits reads the first 32 periods. -/
theorem decoderLoopRefinesThePeriodList : Obligations.DecoderLoopRefinesThePeriodList := by
  unfold Obligations.DecoderLoopRefinesThePeriodList
  intro rest prev
  rw [decodeBits_start, readPeriods, payloadOf, Nat.zero_add]

/-- Settles O26: rising entries make no periods, and the loop reads nothing else. -/
theorem risingEntriesAfterThePreambleAreIgnored : Obligations.RisingEntriesAfterThePreambleAreIgnored := by
  unfold Obligations.RisingEntriesAfterThePreambleAreIgnored
  intro e0 e1 e2 rest
  have hloop : decodeBits Config.hw (rest.filter (fun e => e.kind == .falling)) e2.ts 0 0 =
      decodeBits Config.hw rest e2.ts 0 0 := by
    rw [decodeBits_start, decodeBits_start, fallingPeriods_filter]
  rw [frameDecode, frameDecode, hloop]

/-- Settles O28: bit by bit from the last received up. -/
theorem firstBitReceivedIsMostSignificant : Obligations.FirstBitReceivedIsMostSignificant := by
  unfold Obligations.FirstBitReceivedIsMostSignificant
  refine ⟨shiftIn_toNat, fun bs hlen => ⟨fun j hj => ?_, fun k hk => ?_, fun rest prev hbits => ?_⟩⟩
  · rw [payloadOf, foldl_shiftIn_getLsbD _ _ _ (by omega), List.getElem?_reverse (by omega), Nat.sub_sub_self (by omega),
      List.getElem?_eq_getElem hj, Option.getD_some]
  · exact Nat.testBit_lt_two_pow ((payloadOf_toNat_lt bs).trans_le (Nat.pow_le_pow_right (by decide) hk))
  · have hperiods : (fallingPeriods prev rest).length = bs.length := by simpa using congrArg List.length hbits
    rw [decodeBits_start, List.take_of_length_le (by omega), readPeriods_of_bits 0 0 hbits, Nat.zero_add, payloadOf]

/-- Settles O29: 32 bits are read from 32 periods, and later entries only add periods after these. -/
theorem entriesAfterThe32ndBitAreIgnored : Obligations.EntriesAfterThe32ndBitAreIgnored := by
  unfold Obligations.EntriesAfterThe32ndBitAreIgnored
  intro es more bits h
  obtain ⟨e0, e1, e2, rest, rfl, hloop⟩ := frameDecode_eq_newFrame Config.hw h
  rw [hloop, decodeBits_start] at h
  obtain ⟨-, hcount⟩ := readPeriods_eq_newFrame h
  have hfull : 32 ≤ (fallingPeriods e2.ts rest).length := by
    rw [List.length_take] at hcount
    omega
  obtain ⟨later, hlater⟩ := fallingPeriods_prefix_append e2.ts rest more
  rw [List.cons_append, List.cons_append, List.cons_append, hloop, decodeBits_start, ← hlater,
    List.take_append_of_le_length hfull, h]

/-- Settles O30: the bits are those of at most 32 periods. -/
theorem newFramesHaveAtMost32RightAlignedBits : Obligations.NewFramesHaveAtMost32RightAlignedBits := by
  unfold Obligations.NewFramesHaveAtMost32RightAlignedBits
  intro es bits n h
  obtain ⟨e0, e1, e2, rest, rfl, hloop⟩ := frameDecode_eq_newFrame Config.hw h
  rw [hloop, decodeBits_start] at h
  obtain ⟨rfl, rfl⟩ := readPeriods_eq_newFrame h
  rw [Nat.zero_add]
  exact ⟨List.length_take_le _ _,
    (payloadOf_toNat_lt _).trans_le (Nat.pow_le_pow_right (by decide) (List.length_filterMap_le _ _))⟩

/-- Settles O25: the period is classified by the range it is in. -/
theorem periodsAppendABitOrAbort : Obligations.PeriodsAppendABitOrAbort := by
  unfold Obligations.PeriodsAppendABitOrAbort
  intro ts prev es bits cnt hcnt
  have hperiod : classifyPeriod Config.hw (tsSub Config.hw ts prev) = periodBit (ts - prev) := by
    rw [tsSub_hw, classifyPeriod_hw]
  unfold periodBit at hperiod
  split
  · next h1 =>
    rw [if_pos h1] at hperiod
    exact decodeBits_bit _ _ _ _ _ _ true hcnt.ne hperiod
  · next h1 =>
    rw [if_neg h1] at hperiod
    split
    · next h0 => exact decodeBits_bit _ _ _ _ _ _ false hcnt.ne (hperiod.trans (if_pos h0))
    · next h0 => exact decodeBits_bad _ _ _ _ _ _ hcnt.ne (hperiod.trans (if_neg h0))

/-- Settles O21: the two rejections before any timestamp is looked at. -/
theorem shortLogsAndWrongKindsAreRejected : Obligations.ShortLogsAndWrongKindsAreRejected := by
  unfold Obligations.ShortLogsAndWrongKindsAreRejected
  constructor
  · intro es hlen
    rcases frameDecode_cases Config.hw es with ⟨-, h⟩ | ⟨e0, e1, e2, rest, rfl, -⟩
    · exact h
    · simp only [List.length_cons] at hlen
      omega
  · intro e0 e1 e2 rest hkind
    rw [frameDecode, if_pos]
    rintro ⟨h0, h1, h2⟩
    simp [h0, h1, h2] at hkind

/-- Settles O22: the two tests one after the other. -/
theorem preambleIsClassifiedByPulseAndSpace : Obligations.PreambleIsClassifiedByPulseAndSpace := by
  unfold Obligations.PreambleIsClassifiedByPulseAndSpace
  intro t0 t1 t2 rest
  rw [frameDecode_falling_rising_falling]
  exact ⟨fun hpulse => if_neg hpulse, fun hlow hhigh => if_pos ⟨hlow, hhigh⟩⟩

/-- Settles O23: a backward step of at most 2^64 − 9500 wraps to 9500 or more, above the highest window. -/
theorem windowsAreTheClosedRangesOfTheTable : Obligations.WindowsAreTheClosedRangesOfTheTable := by
  unfold Obligations.WindowsAreTheClosedRangesOfTheTable
  constructor
  · intro earlier later hback
    have hwrap : (sub64 later earlier).toNat = 2 ^ 64 - (earlier.toNat - later.toNat) := BitVec.toNat_sub_of_lt hback
    refine ⟨hwrap, fun hstep target htarget => ?_⟩
    have hle : target ≤ 9300 := by
      simp only [List.mem_cons, List.not_mem_nil, or_false] at htarget
      omega
    rw [← Bool.not_eq_true, inWin_iff, Config.hw_slack]
    omega
  · intro v
    refine ⟨fun target => ?_, inWin_hw_startPulse v, inWin_hw_spaceRepeat v, inWin_hw_spaceNew v, inWin_hw_bit1 v,
      inWin_hw_bit0 v⟩
    rw [inWin_iff, Config.hw_slack]
    omega

/-- Settles O24: from slack 564 on, 1687 µs is in both windows. -/
theorem bitWindowsOverlapFromSlack564 : Obligations.BitWindowsOverlapFromSlack564 := by
  unfold Obligations.BitWindowsOverlapFromSlack564
  intro slack
  refine ⟨?_, fun v hv => (classifyPeriod_eq_true _ v).2 hv⟩
  simp only [inWin_iff]
  constructor
  · rintro ⟨v, ⟨hlow1, -⟩, -, hhigh0⟩
    omega
  · intro hslack
    have h1687 : (1687 : Timestamp).toNat = 1687 := rfl
    exact ⟨1687, by omega, by omega⟩

/-- Settles O17: on a log that is not empty the gap decides. -/
theorem tickDecodesOnlyAnIdleLog : Obligations.TickDecodesOnlyAnIdleLog := by
  unfold Obligations.TickDecodesOnlyAnIdleLog
  intro now s
  refine ⟨exec_tick_of_log_nil now, fun hlog hgap => ?_, fun hlog hgap => ?_⟩
  · rw [exec_tick_of_log_ne_nil now hlog, if_neg (Nat.not_lt.2 hgap), State.noEvent]
  · rw [exec_tick_of_log_ne_nil now hlog, if_pos hgap]

/-- Settles O18: the state after the cycle is the conclusion on the cleared log. -/
theorem decodeCycleClearsTheLogAndConcludes : Obligations.DecodeCycleClearsTheLogAndConcludes := by
  unfold Obligations.DecodeCycleClearsTheLogAndConcludes
  intro s
  obtain ⟨hlog, -, -, -, d, hevent⟩ := conclude_frame Config.hw (frameDecode Config.hw s.log) s.logClear
  refine ⟨_, d, decodeCycle_eq Config.hw s, fun now => exec_tick_of_idle, hlog, hevent, d.status.isAccepted_iff, ?_⟩
  cases frameDecode Config.hw s.log <;> rfl

/-- Settles O19: a TICK either only ends the event or concludes a decode cycle. -/
theorem tickCompletesWithinItsFrame : Obligations.TickCompletesWithinItsFrame := by
  unfold Obligations.TickCompletesWithinItsFrame
  intro now s
  have hexec : exec (.tick now) s = execTick now s := rfl
  rw [hexec, execTick_eq]
  refine ⟨_, rfl, ?_⟩
  split
  · obtain ⟨hlog, hlast, hin, hdraws, d, hevent⟩ := conclude_frame Config.hw (frameDecode Config.hw s.log) s.logClear
    refine ⟨hlast, hin, hdraws, fun hnone => ?_, fun d' hd' => ⟨hlog, conclude_keeps Config.hw _ s.logClear hd'⟩⟩
    rw [hevent] at hnone
    cases hnone
  · exact ⟨rfl, rfl, rfl, fun _ => ⟨rfl, rfl, rfl⟩, fun d hd => by cases hd⟩

/-- Settles O38: both checksums hold, and the payload splits into its bytes. -/
theorem idleTickAcceptsAValidFrame : Obligations.IdleTickAcceptsAValidFrame := by
  unfold Obligations.IdleTickAcceptsAValidFrame
  intro now s address command hidle hframe
  have hlog : s.log ≠ [] := by
    intro hnil
    rw [hnil] at hframe
    cases hframe
  have haddr := addressValid_not address command (~~~command)
  have hcmd := commandValid_not address (~~~address) command
  rw [exec_tick_accepts now hlog hidle hframe haddr hcmd, acceptFrame, frameDiag, haddr, hcmd, address_append,
    command_append]
  rfl

/-- Settles O40: the preamble is a repeat frame, which a cached command answers and an empty cache does not. -/
theorem idleTickReplaysOnARepeatFrame : Obligations.IdleTickReplaysOnARepeatFrame := by
  unfold Obligations.IdleTickReplaysOnARepeatFrame
  intro now t0 pulse space more s hlog hidle hp hp' hs hs'
  have hne : s.log ≠ [] := by
    rw [hlog]
    exact List.cons_ne_nil _ _
  obtain ⟨hcleared, hcache⟩ := repeatFrame_log_cache s.logClear
  refine ⟨repeatFrame s.logClear, ?_, hcleared, hcache, fun hvalid => ?_, fun hpair => ?_, fun hempty => ?_⟩
  · rw [exec_tick_of_idle hne hidle, hlog, frameDecode_repeatPreamble t0 pulse space more ⟨hp, hp'⟩ ⟨hs, hs'⟩, conclude]
  · rw [repeatFrame_of_valid (s := s.logClear) hvalid]
    exact ⟨rfl, rfl⟩
  · have hvalid : s.logClear.cache.valid = true := by rw [State.logClear_cache, hpair]
    rw [repeatFrame_of_valid hvalid, (ports_of_event rfl).2, State.logClear_cache, hpair]
    decide
  · rw [repeatFrame_of_empty (s := s.logClear) hempty, (ports_of_event rfl).2]
    exact ⟨rfl, by decide⟩

end Sys2Proof.Machine
end

section
/-! The statements of 42_validate_repeat.md: the checksum flags (R162), what ValidateFrame accepts and reports (R163 to
R165), the repeat frame (R170), and what writes CommandSink (R173). -/

namespace Sys2Proof.Machine

/-! ### The checksum flags -/

/-- Two bytes differ in every bit exactly when the second is the bitwise inverse of the first (R162). -/
theorem xor_eq_ff_iff (b complement : Byte) : b ^^^ complement = 0xFF#8 ↔ complement = ~~~b := by
  constructor
  · intro h
    calc complement = b ^^^ (b ^^^ complement) := by rw [← BitVec.xor_assoc, BitVec.xor_self, BitVec.zero_xor]
      _ = b ^^^ BitVec.allOnes 8 := by rw [h]; rfl
      _ = ~~~b := BitVec.xor_allOnes
  · rintro rfl
    exact (complementOk_iff_xor b _).1 (complementOk_not b)

/-- The address flag depends on the first two bytes of the payload alone (R161, R162). -/
theorem addressValid_append (a ac c cc : Byte) : addressValid (a ++ ac ++ c ++ cc) = complementOk a ac := by
  rw [addressValid, address_append, addressComplement_append]

/-- The command flag depends on the last two bytes of the payload alone (R161, R162). -/
theorem commandValid_append (a ac c cc : Byte) : commandValid (a ++ ac ++ c ++ cc) = complementOk c cc := by
  rw [commandValid, command_append, commandComplement_append]

/-- A payload whose address flag holds has bit 31 or bit 23 set, the top bits of the address and its complement (R161,
R162). -/
theorem two_pow_le_toNat_of_addressValid {bits : Payload} (h : addressValid bits = true) : 2 ^ 23 ≤ bits.toNat := by
  by_contra hlt
  have htop : ∀ i, 23 ≤ i → bits.getLsbD i = false := fun i hi =>
    Nat.testBit_lt_two_pow ((Nat.not_le.1 hlt).trans_le (Nat.pow_le_pow_right (by decide) hi))
  have hbit : (Payload.address bits ^^^ Payload.addressComplement bits).getLsbD 7 = (0xFF#8).getLsbD 7 := by
    rw [(complementOk_iff_xor _ _).1 h]
  rw [BitVec.getLsbD_xor, Payload.address, Payload.addressComplement, BitVec.getLsbD_extractLsb',
    BitVec.getLsbD_extractLsb', htop (24 + 7) (by decide), htop (16 + 7) (by decide)] at hbit
  cases hbit

/-! ### ValidateFrame -/

/-- Whatever it comes to, ValidateFrame reports the frame under one status: its bytes, both flags, and its bits (R164). -/
theorem validateFrame_event (c : Config) (bits : Payload) (n : Nat) (s : State) :
    ∃ status, (validateFrame c bits n s).event = some (frameDiag status bits n) := by
  rcases validateFrame_cases c bits n s with ⟨-, -, -, h⟩ | ⟨-, -, h⟩ | ⟨-, -, h⟩
  · exact ⟨.accepted, by rw [h]; rfl⟩
  · exact ⟨.shortFrame, by rw [h]; rfl⟩
  · exact ⟨.checksumMismatch, by rw [h]; rfl⟩

/-! ### CommandSink -/

/-- A decode cycle that writes CommandSink reports ACCEPTED or REPEAT (R173). -/
theorem conclude_sink_ne (c : Config) (r : DecodeResult) {s : State} (h : (conclude c r s).sink ≠ s.sink) :
    ∃ d, (conclude c r s).event = some d ∧ (d.status = .accepted ∨ d.status = .repeated) := by
  obtain ⟨-, -, -, -, d, hd⟩ := conclude_frame c r s
  obtain ⟨-, hsink⟩ := conclude_keeps c r s hd
  exact ⟨d, hd, or_iff_not_imp_left.2 fun hacc => by_contra fun hrep => h (hsink hacc hrep)⟩

/-! ### The obligations -/

/-- Settles O34: each flag compares its own two bytes, and the event holds both under every status. -/
theorem flagsHoldExactlyForInvertedBytes : Obligations.FlagsHoldExactlyForInvertedBytes := by
  unfold Obligations.FlagsHoldExactlyForInvertedBytes
  intro a ac c cc
  rw [addressValid_append, commandValid_append]
  refine ⟨complementOk_iff_xor a ac, complementOk_iff_xor c cc, xor_eq_ff_iff a ac, xor_eq_ff_iff c cc, ?_⟩
  intro p n s
  obtain ⟨status, hevent⟩ :=
    validateFrame_event { Config.hw with shortFramePolicy := p } (a ++ ac ++ c ++ cc) n s
  rw [hevent, Option.map_some, frameDiag, addressValid_append, commandValid_append]
  rfl

/-- Settles O36: of the three ends of ValidateFrame only acceptance writes, and under Reject it needs 32 bits. -/
theorem onlyFullValidFramesAreAccepted : Obligations.OnlyFullValidFramesAreAccepted := by
  unfold Obligations.OnlyFullValidFramesAreAccepted
  intro bits n s hn
  rcases validateFrame_cases Config.hw bits n s with ⟨haddr, hcmd, hlen, h⟩ | ⟨hlen, -, h⟩ | ⟨-, hflags, h⟩ <;> rw [h]
  · have hfull : n = 32 := by
      rcases hlen with hlen | hpolicy
      · exact Nat.le_antisymm hn hlen
      · cases hpolicy
    exact ⟨iff_of_true rfl ⟨hfull, haddr, hcmd⟩, fun hnot => absurd ⟨hfull, haddr, hcmd⟩ hnot⟩
  · have hshort : n ≠ 32 := hlen.ne
    exact ⟨iff_of_false nofun fun hacc => hshort hacc.1, fun _ => ⟨rfl, rfl, fun hfull => absurd hfull hshort⟩⟩
  · have hinvalid : ¬ (addressValid bits = true ∧ commandValid bits = true) := by
      rw [← Bool.and_eq_true, hflags]
      exact Bool.false_ne_true
    exact ⟨iff_of_false nofun fun hacc => hinvalid hacc.2, fun _ => ⟨rfl, rfl, fun _ => rfl⟩⟩

/-- Settles O37: `n` bits make a number below 2^n, and the address flag alone needs bit 23 or a higher one. -/
theorem shortFramesPassChecksumsOnlyFrom24Bits : Obligations.ShortFramesPassChecksumsOnlyFrom24Bits := by
  unfold Obligations.ShortFramesPassChecksumsOnlyFrom24Bits
  intro es bits n hframe haddr _
  obtain ⟨-, hbits⟩ := newFramesHaveAtMost32RightAlignedBits es bits n hframe
  exact (Nat.pow_lt_pow_iff_right (by decide)).1 ((two_pow_le_toNat_of_addressValid haddr).trans_lt hbits)

/-- Settles O51: an EDGE and a TICK without a decode cycle leave the sink alone. -/
theorem onlyGoodDecodesAndTheConsumerWriteTheSink : Obligations.OnlyGoodDecodesAndTheConsumerWriteTheSink := by
  unfold Obligations.OnlyGoodDecodesAndTheConsumerWriteTheSink
  intro i s t h hne
  rcases exec_cases h with ⟨_, _, -, -, ht⟩ | ⟨_, _, -, -, ht⟩ | ⟨_, -, -, ht⟩ | ⟨_, -, -, -, ht⟩ | ⟨hi, -⟩ | ⟨hi, -⟩
  · cases ht; exact absurd rfl hne
  · cases ht; exact absurd rfl hne
  · cases ht; exact absurd rfl hne
  · cases ht; exact .inr (.inr (conclude_sink_ne Config.hw (frameDecode Config.hw s.log) hne))
  · exact .inl hi
  · exact .inr (.inl hi)

/-- Settles O35: the two tests of R164, with the conjunction of the flags as a proposition. -/
theorem validateFrameAcceptsOrReports : Obligations.ValidateFrameAcceptsOrReports := by
  unfold Obligations.ValidateFrameAcceptsOrReports
  intro p bits n s _ address command av cv d
  have hflags : (addressValid bits && commandValid bits) = true ↔ av = true ∧ cv = true := Bool.and_eq_true_iff
  rw [validateFrame, if_congr (and_congr_right' (or_congr_right (not_congr hflags))) rfl (if_congr hflags rfl rfl)]
  rfl

/-- Settles O39: the cache is either loaded or empty. -/
theorem repeatFrameReplaysTheCachedCommand : Obligations.RepeatFrameReplaysTheCachedCommand := by
  unfold Obligations.RepeatFrameReplaysTheCachedCommand
  intro s
  cases hvalid : s.cache.valid with
  | true => rw [repeatFrame_of_valid hvalid]; rfl
  | false => rw [repeatFrame_of_empty hvalid]; rfl

end Sys2Proof.Machine
end

section
/-! The statements of 43_host.md: ACK (R190), CLEAR (R191), and the race of an ACK and a decoder write (R193). -/

namespace Sys2Proof.Machine

/-! ### The event of a decode cycle -/

/-- Only a decode cycle makes a TICK emit (R121). -/
theorem exec_tick_emits {now : Timestamp} {s t : State} {d : Diag} (h : exec (.tick now) s = .next t)
    (hd : t.event = some d) :
    s.log ≠ [] ∧ 10000 < (now - s.lastTs).toNat ∧
      t = conclude Config.hw (frameDecode Config.hw s.log) s.logClear := by
  have hexec : exec (.tick now) s = execTick now s := rfl
  rw [hexec, execTick_eq] at h
  split at h
  · next hidle => cases h; exact ⟨hidle.1, hidle.2, rfl⟩
  · cases h; cases hd

/-- Of the state a decode cycle finds, its event depends on RepeatCache alone (R164, R170). -/
theorem conclude_event_congr (c : Config) (r : DecodeResult) {s s' : State} (h : s.cache = s'.cache) :
    (conclude c r s).event = (conclude c r s').event := by
  cases r with
  | repeatFrame =>
    simp only [conclude, repeatFrame, h]
    split <;> rfl
  | newFrame bits n =>
    simp only [conclude, validateFrame]
    split
    · rfl
    · split <;> rfl
  | insufficientEvents => rfl
  | invalidPreamble => rfl
  | invalidBitTiming => rfl

/-- After an ACCEPTED or a REPEAT, CommandSink holds the command the event reports, unconsumed (R166, R170, R172). -/
theorem conclude_sink_of_accepted (c : Config) (r : DecodeResult) {s : State} {d : Diag}
    (hd : (conclude c r s).event = some d) (hacc : d.status.isAccepted = true) :
    (conclude c r s).sink = { cmd := d.command, consumed := false, isRepeat := d.isRepeat } := by
  rcases conclude_cases c r s with ⟨bits, n, -, -, -, -, h⟩ | ⟨-, -, h⟩ | ⟨d', hstatus, -, h⟩ <;> rw [h] at hd ⊢ <;>
    cases hd
  · rfl
  · rfl
  · rcases (Status.isAccepted_iff _).1 hacc with hok | hok <;> simp [hok, Status.isError] at hstatus

/-! ### The obligations -/

/-- Settles O44: the event determines the sink a decode cycle writes, and an ACK before it does not change the event. -/
theorem ackRacesADecoderWrite : Obligations.AckRacesADecoderWrite := by
  unfold Obligations.AckRacesADecoderWrite
  intro now s t d h hd hacc
  obtain ⟨hlog, hidle, rfl⟩ := exec_tick_emits h hd
  have hd' := (conclude_event_congr Config.hw (frameDecode Config.hw s.log)
    (s := { s with sink := { s.sink with consumed := true }, event := none }.logClear) (s' := s.logClear) rfl).trans hd
  have hsink := conclude_sink_of_accepted _ _ hd hacc
  have hsink' := conclude_sink_of_accepted _ _ hd' hacc
  refine ⟨⟨_, execAck_eq _, rfl, rfl⟩, _, _, execAck_eq s, exec_tick_of_idle hlog hidle, ?_, ?_⟩
  · rw [hsink']
  · rw [hsink', hsink]

/-- Settles O42: ACK's word is a closed term, and its effect is that of R190. -/
theorem ackMarksTheCommandConsumed : Obligations.AckMarksTheCommandConsumed := by
  unfold Obligations.AckMarksTheCommandConsumed
  exact ⟨by decide, execAck_eq⟩

/-- Settles O43: CLEAR's word is a closed term, and its effect is that of R191. -/
theorem clearEmptiesTheSinkButNotTheCache : Obligations.ClearEmptiesTheSinkButNotTheCache := by
  unfold Obligations.ClearEmptiesTheSinkButNotTheCache
  exact ⟨by decide, execClear_eq⟩

end Sys2Proof.Machine
end

section
/-! The statements of 60_exceptions.md: every transaction completes and no step faults (R200, R203), what a transaction
can emit (R205), what an error leaves (R202), the one status of a decode cycle (R204), and the words of one instant
(R208). -/

namespace Sys2Proof.Machine

/-! ### Words of one instant -/

/-- A draw that is the index of a waiting word chooses that word, and the others wait in their order. -/
theorem chooseWord_of_draw (c : Config) (draw : Nat) {first w : InWord} {waiting before after : List InWord}
    (hwords : first :: waiting = before ++ w :: after) (hdraw : c.arrivalOrder draw = before.length) :
    chooseWord c draw first waiting = (w, before ++ after) := by
  have hindex : c.arrivalOrder draw % (before ++ w :: after).length = before.length := by
    rw [hdraw]
    exact Nat.mod_eq_of_lt (by simp)
  simp only [chooseWord, hwords, hindex]
  simp [List.eraseIdx_append_of_length_le]

/-- Of several words of an instant the step takes the one whose index `ARRIVAL_ORDER` gives at this draw (R208). -/
theorem takeInput_of_draw (c : Config) {s : State} {before : List InWord} {w : InWord} {after : List InWord}
    {later : List Presentation} (hin : s.inputs = ⟨false, before ++ w :: after⟩ :: later) (hmany : before ++ after ≠ [])
    (hdraw : c.arrivalOrder s.draws = before.length) :
    s.takeInput c = (.word w, { s with inputs := ⟨false, before ++ after⟩ :: later, draws := s.draws + 1 }) := by
  obtain ⟨first, second, waiting, hwords⟩ :
      ∃ first second waiting, before ++ w :: after = first :: second :: waiting := by
    match before, after with
    | [], [] => exact absurd rfl hmany
    | [], second :: waiting => exact ⟨w, second, waiting, rfl⟩
    | [first], after => exact ⟨first, w, after, rfl⟩
    | first :: second :: before, after => exact ⟨first, second, before ++ w :: after, rfl⟩
  rw [hwords] at hin
  simp [State.takeInput, hin, chooseWord_of_draw c s.draws hwords.symm hdraw]

/-- A transaction does the same to the registers with whatever words still wait and however many choices were drawn. -/
theorem exec_withWaiting (i : Instr) (s : State) (a a' : List Presentation) (b b' : Nat) :
    ∃ t : State, exec i { s with inputs := a, draws := b } = .next { t with inputs := a, draws := b } ∧
      exec i { s with inputs := a', draws := b' } = .next { t with inputs := a', draws := b' } := by
  obtain ⟨t, hexec, -, -, hwaiting⟩ := exec_inputs i s a b
  obtain ⟨t', hexec', -, -, hwaiting'⟩ := exec_inputs i s a' b'
  cases hexec.symm.trans hexec'
  exact ⟨t, hwaiting, hwaiting'⟩

/-- A step that takes a word does what performing that word first does, so the runs agree when what follows does. -/
theorem stepsInOrder_succ_eq_performWords_cons {order : Nat → Nat} {n : Nat} {s : State} {w : InWord}
    {ws : List InWord} {a later : List Presentation} {b draws : Nat}
    (htake : s.takeInput { Config.hw with arrivalOrder := order } = (.word w, { s with inputs := a, draws := b }))
    (hrest : ∀ t : State, stepsInOrder order n { t with inputs := a, draws := b } =
      performWords ws { t with inputs := later, draws := draws }) :
    stepsInOrder order (n + 1) s = performWords (w :: ws) { s with inputs := later, draws := draws } := by
  rw [stepsInOrder, htake, performWords]
  cases hdec : decode w with
  | error why => rw [perform_illegal hdec, perform_illegal hdec]
  | ok i =>
    obtain ⟨t, hwaiting, hlater⟩ := exec_withWaiting i s a later b draws
    rw [perform_legal hdec, perform_legal hdec, hwaiting, hlater]
    exact hrest t

/-- For every arrangement of the words of an instant there are draws, each the index of the next word among those still
waiting, under which the steps perform the arrangement (R208). They are the same from every state, and only the draws
from now on count. -/
theorem exists_draws_performing {words arranged : List InWord} (hperm : arranged.Perm words) (hne : words ≠ []) :
    ∃ picks : List Nat, ∀ (order : Nat → Nat) (s : State) (later : List Presentation),
      s.inputs = ⟨false, words⟩ :: later → (∀ k, order (s.draws + k) = picks.getD k 0) →
      stepsInOrder order words.length s =
        performWords arranged { s with inputs := later, draws := s.draws + (words.length - 1) } := by
  induction arranged generalizing words with
  | nil => exact absurd hperm.nil_eq.symm hne
  | cons w arranged ih =>
    obtain ⟨before, after, rfl⟩ := List.append_of_mem (hperm.subset List.mem_cons_self)
    have hrest : arranged.Perm (before ++ after) := (hperm.trans List.perm_middle).cons_inv
    by_cases hmany : before ++ after = []
    · obtain ⟨rfl, rfl⟩ := List.append_eq_nil_iff.1 hmany
      obtain rfl := hrest.eq_nil
      exact ⟨[], fun order s later hin _ =>
        stepsInOrder_succ_eq_performWords_cons (takeInput_of_one_word _ hin) fun _ => rfl⟩
    · obtain ⟨picks, hpicks⟩ := ih hrest hmany
      refine ⟨before.length :: picks, fun order s later hin hdraws => ?_⟩
      have hlen : (before ++ w :: after).length = (before ++ after).length + 1 := List.perm_middle.length_eq
      have hcount : s.draws + (before ++ after).length = s.draws + 1 + ((before ++ after).length - 1) := by
        have := List.length_pos_of_ne_nil hmany
        omega
      have hnext : ∀ k, order (s.draws + 1 + k) = picks.getD k 0 := fun k => by
        rw [Nat.add_assoc, Nat.add_comm 1, hdraws, List.getD_cons_succ]
      rw [hlen, Nat.add_sub_cancel, hcount]
      exact stepsInOrder_succ_eq_performWords_cons (takeInput_of_draw _ hin hmany (hdraws 0)) fun t =>
        hpicks order { t with inputs := ⟨false, before ++ after⟩ :: later, draws := s.draws + 1 } later rfl hnext

/-! ### How a step ends -/

/-- Performing an input completes, unless it is an illegal word, which is refused by its own reason (R76, R200). -/
theorem perform_cases (x : Input) (s : State) :
    (∃ t, perform (x, s) = .next t) ∨
    ∃ w why, x = .word w ∧ decode w = .error why ∧ perform (x, s) = .refused (.illegalWord why) := by
  cases x with
  | nothing => exact .inl ⟨_, perform_nothing s⟩
  | reset => exact .inl ⟨_, perform_reset s⟩
  | word w =>
    cases hdec : decode w with
    | ok i =>
      obtain ⟨t, hexec, -⟩ := exec_inputs i s s.inputs s.draws
      exact .inl ⟨t, (perform_legal hdec s).trans hexec⟩
    | error why => exact .inr ⟨w, why, rfl, hdec, perform_illegal hdec s⟩

/-! ### The status of a decode cycle -/

/-- The status a decode cycle reports for FrameDecoder's result, under a short-frame policy and with or without a cached
command (R164, R165, R170). -/
def DecodeResult.status (p : ShortFramePolicy) (cached : Bool) : DecodeResult → Status
  | .insufficientEvents => .insufficientEvents
  | .invalidPreamble => .invalidPreamble
  | .invalidBitTiming => .invalidBitTiming
  | .repeatFrame => if cached then .repeated else .repeatEmpty
  | .newFrame bits n =>
    if n < 32 ∧ (p = .reject ∨ ¬ (addressValid bits = true ∧ commandValid bits = true)) then .shortFrame
    else if addressValid bits = true ∧ commandValid bits = true then .accepted
    else .checksumMismatch

/-- A decode cycle reports the status of FrameDecoder's result. -/
theorem conclude_status (p : ShortFramePolicy) (r : DecodeResult) (s : State) :
    (conclude { Config.hw with shortFramePolicy := p } r s).event.map (·.status) = some (r.status p s.cache.valid) := by
  cases r with
  | insufficientEvents => rfl
  | invalidPreamble => rfl
  | invalidBitTiming => rfl
  | repeatFrame =>
    rw [conclude, DecodeResult.status]
    cases hvalid : s.cache.valid with
    | true => rw [repeatFrame_of_valid hvalid]; rfl
    | false => rw [repeatFrame_of_empty hvalid]; rfl
  | newFrame bits n =>
    simp only [conclude, validateFrame, DecodeResult.status, Bool.and_eq_true, Config.hw_frameBits]
    split
    · rfl
    · split <;> rfl

/-- A decode cycle reports any status but BUFFER_OVERFLOW (R205). -/
theorem conclude_status_ne_bufferOverflow (c : Config) (r : DecodeResult) {s : State} {d : Diag}
    (hd : (conclude c r s).event = some d) : d.status ≠ .bufferOverflow := by
  rcases conclude_cases c r s with ⟨bits, n, -, -, -, -, h⟩ | ⟨-, -, h⟩ | ⟨d', -, hstatus, h⟩ <;> rw [h] at hd <;>
    cases hd
  · exact Status.noConfusion
  · exact Status.noConfusion
  · exact hstatus

/-- The decoder's loop does not read the short-frame policy (R129 to R133). -/
theorem decodeBits_withPolicy (p : ShortFramePolicy) (es : List EdgeEvent) (prev : Timestamp) (bits : Payload)
    (cnt : Nat) :
    decodeBits { Config.hw with shortFramePolicy := p } es prev bits cnt = decodeBits Config.hw es prev bits cnt := by
  induction es generalizing prev bits cnt with
  | nil => rfl
  | cons e es ih =>
    simp only [decodeBits, ih]
    rfl

/-- FrameDecoder does not read the short-frame policy (R125, R165). -/
theorem frameDecode_withPolicy (p : ShortFramePolicy) (es : List EdgeEvent) :
    frameDecode { Config.hw with shortFramePolicy := p } es = frameDecode Config.hw es := by
  match es with
  | [] => rfl
  | [_] => rfl
  | [_, _] => rfl
  | e0 :: e1 :: e2 :: rest =>
    simp only [frameDecode, decodeBits_withPolicy]
    rfl

/-- FrameDecoder on three entries or more, with the periods after the preamble read as a list (R126 to R133). -/
theorem frameDecode_of_three (e0 e1 e2 : EdgeEvent) (rest : List EdgeEvent) :
    frameDecode Config.hw (e0 :: e1 :: e2 :: rest) =
      if ¬ (e0.kind = .falling ∧ e1.kind = .rising ∧ e2.kind = .falling) ∨
          ¬ (9101 ≤ (e1.ts - e0.ts).toNat ∧ (e1.ts - e0.ts).toNat ≤ 9499) then .invalidPreamble
      else if 2051 ≤ (e2.ts - e1.ts).toNat ∧ (e2.ts - e1.ts).toNat ≤ 2449 then .repeatFrame
      else if ¬ (4301 ≤ (e2.ts - e1.ts).toNat ∧ (e2.ts - e1.ts).toNat ≤ 4699) then .invalidPreamble
      else readPeriods 0 0 ((fallingPeriods e2.ts rest).take 32) := by
  simp only [frameDecode, tsSub_hw, inWin_hw_startPulse, inWin_hw_spaceRepeat, inWin_hw_spaceNew, decodeBits_start]
  by_cases hkinds : e0.kind = .falling ∧ e1.kind = .rising ∧ e2.kind = .falling
  · rw [if_neg (not_not.2 hkinds)]
    exact if_congr (or_iff_right (not_not.2 hkinds)).symm rfl rfl
  · rw [if_pos hkinds, if_pos (.inl hkinds)]

/-- The list of R204 gives the status of FrameDecoder's result. -/
theorem reportedStatus_eq (p : ShortFramePolicy) (cached : Bool) (es : List EdgeEvent) :
    reportedStatus p cached es = (frameDecode Config.hw es).status p cached := by
  match es with
  | [] => rfl
  | [_] => rfl
  | [_, _] => rfl
  | e0 :: e1 :: e2 :: rest =>
    rw [frameDecode_of_three, readPeriods, Nat.zero_add]
    simp only [apply_ite (DecodeResult.status p cached)]
    rfl

/-- A TICK on an idle log runs the decode cycle under either short-frame policy (R121). -/
theorem tick_withPolicy_of_idle (p : ShortFramePolicy) {now : Timestamp} {s : State} (hlog : s.log ≠ [])
    (hidle : 10000 < (now - s.lastTs).toNat) :
    tick { Config.hw with shortFramePolicy := p } now s =
      .next (conclude { Config.hw with shortFramePolicy := p } (frameDecode Config.hw s.log) s.logClear) := by
  have hlen : s.logLen ≠ 0 := fun h => hlog (List.length_eq_zero_iff.1 h)
  have hgap : s.isIdleAt { Config.hw with shortFramePolicy := p } now = true := (isIdleAt_hw s now).2 hidle
  rw [tick, if_neg hlen, if_neg (not_not.2 hgap), decodeCycle_eq, frameDecode_withPolicy]

/-! ### The obligations -/

/-- Settles O10: with two words or more, taking an input takes one of them. -/
theorem simultaneousWordsArePerformedOneByOne : Obligations.SimultaneousWordsArePerformedOneByOne := by
  unfold Obligations.SimultaneousWordsArePerformedOneByOne
  intro s words later hin hlen
  rcases hx : s.takeInput Config.hw with ⟨x, s'⟩
  rcases takeInput_cases hx with ⟨-, hin', -⟩ | ⟨_, -, hin', -⟩ | ⟨_, _, -, hin', -⟩ | ⟨_, _, -, hin', -⟩ |
    ⟨before, w, after, _, rfl, -, hin', rfl⟩ <;> cases hin.symm.trans hin'
  · cases hlen
  · exact absurd hlen (by simp)
  · refine ⟨before, w, after, rfl, ?_⟩
    rw [step, hx]
    cases hdec : decode w with
    | ok i => exact perform_legal hdec _
    | error why => exact perform_illegal hdec _

/-- Settles O60: the index of the word is such an order. -/
theorem anyWaitingWordCanBeNext : Obligations.AnyWaitingWordCanBeNext := by
  unfold Obligations.AnyWaitingWordCanBeNext
  intro s before w after later hin hmany
  exact ⟨fun _ => before.length, takeInput_of_draw _ hin hmany rfl⟩

/-- Settles O11: the order gives the arrangement's draws from the present count of draws on. -/
theorem everyArrivalOrderIsAdmitted : Obligations.EveryArrivalOrderIsAdmitted := by
  unfold Obligations.EveryArrivalOrderIsAdmitted
  constructor
  · intro s words arranged later hin hne hperm
    obtain ⟨picks, hpicks⟩ := exists_draws_performing hperm hne
    exact ⟨fun draw => picks.getD (draw - s.draws) 0, hpicks _ s later hin fun k => by rw [Nat.add_sub_cancel_left]⟩
  · intro s
    rw [stepsInOrder_hw, Host.Core.run]
    split <;> next hstep => exact hstep.symm

/-- Settles O12: the EDGE writes `last_ts`, from which the TICK takes its gap. -/
theorem edgeAndTickDoNotCommute : Obligations.EdgeAndTickDoNotCommute := by
  unfold Obligations.EdgeAndTickDoNotCommute
  intro s kind t now hlog hroom hidle hgap
  constructor
  · obtain ⟨hcleared, -, -, -, d, hevent⟩ := conclude_frame Config.hw (frameDecode Config.hw s.log) s.logClear
    have hroom' : (conclude Config.hw (frameDecode Config.hw s.log) s.logClear).log.length < 100 := by
      rw [hcleared]
      exact Nat.succ_pos 99
    refine ⟨_, _, exec_tick_of_idle hlog hidle, hcleared, ?_, exec_edge_of_room ⟨kind, t⟩ hroom', ?_, rfl⟩
    · rw [hevent]
      exact Option.some_ne_none d
    · rw [State.noEvent_log, State.logAppend_log, hcleared]
      rfl
  · have hne : (s.logAppend kind t).noEvent.log ≠ [] := by simp
    have htick := (exec_tick_of_log_ne_nil now hne).trans (if_neg (Nat.not_lt.2 hgap))
    exact ⟨_, _, exec_edge_of_room ⟨kind, t⟩ hroom, rfl, rfl, htick, rfl, rfl, rfl, rfl⟩

/-- Settles O48: a TICK that finds the log idle reports the status of what the log decodes to; this hardware's policy is
Reject. -/
theorem tickReportsTheFirstStatusThatApplies : Obligations.TickReportsTheFirstStatusThatApplies := by
  unfold Obligations.TickReportsTheFirstStatusThatApplies
  intro now s hlog hidle
  have hreport : ∀ p : ShortFramePolicy, ∃ t, tick { Config.hw with shortFramePolicy := p } now s = .next t ∧
      t.event.map (·.status) = some (reportedStatus p s.cache.valid s.log) := fun p =>
    ⟨_, tick_withPolicy_of_idle p hlog hidle, by rw [conclude_status, reportedStatus_eq, State.logClear_cache]⟩
  exact ⟨hreport, hreport .reject⟩

/-- Settles O49: transaction by transaction; a decode cycle's conclusions are no overflow. -/
theorem eachTransactionEmitsOnlyItsOwnEvents : Obligations.EachTransactionEmitsOnlyItsOwnEvents := by
  unfold Obligations.EachTransactionEmitsOnlyItsOwnEvents
  intro i s
  obtain ⟨t, hexec, -⟩ := exec_inputs i s s.inputs s.draws
  refine ⟨t, hexec, ?_⟩
  rcases exec_cases hexec with ⟨_, _, rfl, -, ht⟩ | ⟨_, _, rfl, -, ht⟩ | ⟨_, rfl, -, ht⟩ | ⟨_, rfl, -, -, ht⟩ |
    ⟨rfl, ht⟩ | ⟨rfl, ht⟩ <;> cases ht
  · exact .inl rfl
  · exact .inr rfl
  · exact fun d hd => by cases hd
  · exact fun d hd => conclude_status_ne_bufferOverflow _ _ hd
  · rfl
  · rfl

/-- Settles O50: the two errors are an overflow, which clears the log and no more, and a discarded decode cycle. -/
theorem errorsLeaveCacheAndSinkAndAnEmptyLog : Obligations.ErrorsLeaveCacheAndSinkAndAnEmptyLog := by
  unfold Obligations.ErrorsLeaveCacheAndSinkAndAnEmptyLog
  intro i s t d hexec hd herror
  rcases exec_cases hexec with ⟨_, _, -, -, ht⟩ | ⟨_, _, -, -, ht⟩ | ⟨_, -, -, ht⟩ | ⟨_, -, -, -, ht⟩ | ⟨-, ht⟩ |
    ⟨-, ht⟩ <;> cases ht
  · cases hd
  · exact ⟨rfl, rfl, rfl⟩
  · cases hd
  · obtain ⟨hlog, -⟩ := conclude_frame Config.hw (frameDecode Config.hw s.log) s.logClear
    obtain ⟨hcache, hsink⟩ := conclude_keeps Config.hw (frameDecode Config.hw s.log) s.logClear hd
    have hacc : d.status ≠ .accepted := fun h => by rw [h] at herror; cases herror
    have hrep : d.status ≠ .repeated := fun h => by rw [h] at herror; cases herror
    exact ⟨hlog, hcache hacc, hsink hacc hrep⟩
  · cases hd
  · cases hd

/-- Settles O54: each transaction has a next state. -/
theorem everyTransactionCompletes : Obligations.EveryTransactionCompletes := by
  unfold Obligations.EveryTransactionCompletes
  intro i s
  obtain ⟨t, hexec, -⟩ := exec_inputs i s s.inputs s.draws
  exact ⟨t, hexec⟩

/-- Settles O55: the input a step takes completes, or is an illegal word. -/
theorem stepsNeverFaultAndRefuseOnlyIllegalWords : Obligations.StepsNeverFaultAndRefuseOnlyIllegalWords := by
  unfold Obligations.StepsNeverFaultAndRefuseOnlyIllegalWords
  intro s
  rcases hx : s.takeInput Config.hw with ⟨x, s'⟩
  rw [step, hx]
  rcases perform_cases x s' with ⟨t, hnext⟩ | ⟨w, why, rfl, hdec, hrefused⟩
  · rw [hnext]
    refine ⟨nofun, fun r => ⟨nofun, ?_⟩⟩
    rintro ⟨w, _, why, heq, hdec, -⟩
    cases heq
    cases (perform_illegal hdec s').symm.trans hnext
  · rw [hrefused]
    refine ⟨nofun, fun r => ⟨fun hr => ?_, ?_⟩⟩
    · cases hr
      exact ⟨w, s', why, rfl, hdec, rfl⟩
    · rintro ⟨_, _, _, heq, hdec', rfl⟩
      cases heq
      cases hdec.symm.trans hdec'
      rfl

end Sys2Proof.Machine
end

section
/-! The statements of 70_reset_and_hazards.md: what the `rst` input does (R230), and that the invariant of the block holds
after reset (R231). -/

namespace Sys2Proof.Machine

/-! ### The `rst` input -/

/-- `rst` is the input taken, and the words presented with it are discarded (R230). -/
theorem takeInput_of_rst (c : Config) {s : State} {words : List InWord} {later : List Presentation}
    (h : s.inputs = ⟨true, words⟩ :: later) : s.takeInput c = (.reset, { s with inputs := later }) := by
  simp [State.takeInput, h]

/-- The ports after reset show an idle block: nothing in the log, nothing to consume and no event (R230, R231). -/
theorem State.ports_resetBlock (s : State) :
    s.resetBlock.ports =
      { sinkCmd := 0, sinkConsumed := 1, sinkIsRepeat := 0, logLen := 0, diagValid := 0, diag := 0 } :=
  rfl

/-- The first repeat frame after reset finds an empty cache (R230). -/
theorem repeatFrame_resetBlock (s : State) :
    repeatFrame s.resetBlock = s.resetBlock.emit { status := .repeatEmpty, isRepeat := true } :=
  repeatFrame_of_empty (by rw [State.resetBlock_cache])

/-- The state right after reset is one that reset leaves as it is. -/
theorem State.resetBlock_reset : State.reset.resetBlock = State.reset :=
  rfl

/-! ### The obligations -/

/-- Settles O9: the step takes `rst` and resets the block, whatever words stand beside it. -/
theorem resetTakesPriorityAndResetsEveryRegister : Obligations.ResetTakesPriorityAndResetsEveryRegister := by
  unfold Obligations.ResetTakesPriorityAndResetsEveryRegister
  intro s words later hin
  have hstep : step s = .next { s with inputs := later }.resetBlock := by
    rw [step, takeInput_of_rst Config.hw hin, perform_reset]
  refine ⟨_, hstep, rfl, State.ports_resetBlock _, ?_⟩
  rw [repeatFrame_resetBlock, State.emit_event, Option.map_some]

/-- Settles O56: reset establishes the invariant from any state, and so from its own. -/
theorem invariantHoldsAfterReset : Obligations.InvariantHoldsAfterReset := by
  unfold Obligations.InvariantHoldsAfterReset
  rw [← State.resetBlock_reset]
  exact State.Inv.resetBlock State.reset

end Sys2Proof.Machine
end
